-- ==== Sys2Proof/Word.lean ====
section
/-! DEFINITION. The bit vectors of the block: bytes, seven-bit groups and varint values (00_scope.md R12, R11). -/

namespace Sys2Proof

/-- A byte, `b[7:0]` (R12). -/
abbrev Byte := BitVec 8

/-- A seven-bit group of a varint or of a split duration (R83, R84). -/
abbrev Group := BitVec 7

/-- A varint value, 14 bits (R11, R112). -/
abbrev V14 := BitVec 14

/-- The number of binary digits of `n`, which is `ceil(log2(n + 1))`, the form every width of R11 has. -/
def bitLength (n : Nat) : Nat := if n = 0 then 0 else n.log2 + 1

end Sys2Proof
end

