-- ==== Sys2Proof/Config.lean ====
section
/-! DEFINITION. The implementation parameters (00_scope.md R10, R11), the constants the source fixes, and the free values. -/

namespace Sys2Proof

/-- `DURATION_ENCODING`: how a two-byte pulse duration is read (R10, R84). -/
inductive DurationEncoding where
  | split7
  | le16
deriving DecidableEq, Repr

/-- The parameters of an instance (R10, R254). They are constants: no rule writes them. -/
structure Params where
  /-- `MAX_PULSES` -/
  maxPulses : Nat
  /-- `FB_CAPACITY` -/
  fbCapacity : Nat
  /-- `T_INTERBYTE`, in gticks -/
  tInterbyte : Nat
  /-- `T_CLEAR`, in gticks -/
  tClear : Nat
  /-- `DURATION_ENCODING` -/
  durationEncoding : DurationEncoding
deriving DecidableEq, Repr

/-- The constraints R10 puts on an instance. -/
abbrev Params.WF (P : Params) : Prop :=
  1 ≤ P.maxPulses ∧ 1 ≤ P.fbCapacity ∧ 1 ≤ P.tInterbyte ∧ 1 ≤ P.tClear

/-- `W_FB` (R11). -/
def Params.wFb (P : Params) : Nat := bitLength P.fbCapacity
/-- `W_PC` (R11). -/
def Params.wPc (P : Params) : Nat := bitLength P.maxPulses
/-- `W_SEG` (R11). -/
def Params.wSeg (P : Params) : Nat := bitLength (2 * P.maxPulses)
/-- `W_NEED` (R11). -/
def Params.wNeed (P : Params) : Nat := bitLength (4 * P.maxPulses)
/-- `W_G` (R11). -/
def Params.wG (P : Params) : Nat := bitLength P.tInterbyte
/-- `W_Q` (R11). -/
def Params.wQ (P : Params) : Nat := bitLength P.tClear
/-- `W_DUR` (R11). -/
def Params.wDur (P : Params) : Nat :=
  match P.durationEncoding with
  | .split7 => 14
  | .le16 => 16

/-- `T_INTERBYTE - 1`: the spec leaves the value OPEN (R10, D11), so nothing is known of it.
DESIGN CHOICE, log entry 4, safe: a statement that evaluates it cannot be proved. -/
opaque Config.tInterbyteLessOne : Nat

/-- `T_CLEAR - 1`: the spec leaves the value OPEN (R10, D12). DESIGN CHOICE, log entry 4, safe. -/
opaque Config.tClearLessOne : Nat

/-- What each FrameBuffer byte holds after power-on: "an unconstrained value (a draw)" (R61, R251).
A free value, log entry 5, safe. -/
opaque Config.fbPowerOn : Nat → Byte

/-- The instance `State.reset` runs on: the defaults of R10, with the two OPEN values left open. -/
def Config.params : Params where
  maxPulses := 17
  fbCapacity := 75
  tInterbyte := Config.tInterbyteLessOne + 1
  tClear := Config.tClearLessOne + 1
  durationEncoding := .split7

/-- `KIND_IR` (R10). -/
def Config.kindIr : Byte := 0x01#8
/-- `KIND_RESET` (R10). -/
def Config.kindReset : Byte := 0x7E#8
/-- `KIND_KEEPALIVE` (R10). -/
def Config.kindKeepalive : Byte := 0x7F#8

end Sys2Proof
end

