-- ==== Sys2Proof/Syntax.lean ====
section
/-! DEFINITION. What the environment can send: the input record of one cycle (10_state.md R20), the lines of the trace
notation (30_encoding.md R94), and the one inductive `Instr` with a constructor for each row of spec/opcode_table.json. -/

namespace Sys2Proof

/-- The input record of one clock cycle (R20). `rx = some b` is `rx_valid = 1` with `rx_data = b`; `rx_data` means nothing
when `rx_valid = 0`, so `rx = none` holds no byte (DEDUCED, log entry 12, safe). -/
structure Input where
  rst : Bool
  rx : Option Byte
  gtick : Bool
  wedged : Bool
deriving DecidableEq, Repr

/-- A cycle not named in a trace: every input is 0 (R94). -/
def Input.idle : Input := { rst := false, rx := none, gtick := false, wedged := false }

/-- One line of a trace (R94). -/
inductive Item where
  /-- The input record of exactly one cycle. A byte it offers while `rx_ready = 0` is not offered again. -/
  | cycle (i : Input)
  /-- `BYTES b bs...`: the bytes are offered one per cycle, each held until it is accepted. -/
  | bytes (b : Byte) (bs : List Byte)
deriving DecidableEq, Repr

/-- A VARINT field that decodes: forms V1 and V2 of R83. The two-byte form keeps both groups, since a non-canonical field is
accepted (R91) and its length moves `pbase` (R85). -/
inductive Varint where
  | one (v : Group)
  | two (l h : Group)
deriving DecidableEq, Repr

/-- The operations of the block (00_scope.md R2), one constructor per row of spec/opcode_table.json. -/
inductive Instr where
  /-- KEEPALIVE, `7F 00` (R155). -/
  | keepalive
  /-- RESET_REQUEST, `7E 00` (R156). -/
  | resetRequest
  /-- CTRL_BAD_PAYLOAD, `0111111k pppppppp` with `p` not 0 (R135). -/
  | ctrlBadPayload (k : Bool) (p : Byte)
  /-- IR_PATTERN (R157): `01`, the three header varints, and the duration byte pairs in order. -/
  | irPattern (pulseCount carrierPeriod carrierHigh : Varint) (durations : List (Byte × Byte))
  /-- UNRECOGNIZED_KIND (R158): a kind byte other than `01`, `7E` and `7F`. -/
  | unrecognizedKind (k : Byte)
  /-- VARINT_1, `0vvvvvvv` (R83, R110). -/
  | varint1 (v : Group)
  /-- VARINT_2, `1lllllll 0hhhhhhh` (R83, R110). -/
  | varint2 (l h : Group)
  /-- VARINT_OVERLONG, `1lllllll 1xxxxxxx` (R83, R110). -/
  | varintOverlong (l x : Group)
  /-- DURATION_SPLIT7, `xlllllll xhhhhhhh` (R84, R118); `x0` and `x1` are the ignored bits 7. -/
  | durationSplit7 (x0 : Bool) (l : Group) (x1 : Bool) (h : Group)
  /-- DURATION_LE16, `llllllll hhhhhhhh` (R84, R118). -/
  | durationLe16 (l h : Byte)
  /-- EV_RST, `1xxx` (R250): `rst = 1`, whatever else the record holds; `acc` is the byte of the hand-shake, if any. -/
  | evRst (acc : Option Byte) (gtick wedged : Bool)
  /-- EV_BYTE, `01xx` (R130): `acc = 1` with `rst = 0`. -/
  | evByte (data : Byte) (gtick wedged : Bool)
  /-- EV_GTICK, `001x` (R142, R146). -/
  | evGtick (wedged : Bool)
  /-- EV_WEDGED, `0xx1` (R147): `wedged = 1` together with the cycle's other inputs. -/
  | evWedged (acc : Option Byte) (gtick : Bool)
deriving DecidableEq, Repr

end Sys2Proof
end

