-- ==== Sys2Proof/Machine/Operands.lean ====
section
/-! DEFINITION. The operand forms: bit fields of a byte, the varint step VSTEP and contract VDECODE (40_varint_decoder.md R110,
R111), the duration reader DUR (R118), and the reference encoders VENC and DURENC (R116, R120). All are pure (R115). -/

namespace Sys2Proof.Machine

/-- Bit 7 of a byte, a varint's continuation bit (R12). -/
def bit7 (b : Byte) : Bool := b.getLsbD 7

/-- `b[6:0]` (R12). -/
def low7 (b : Byte) : Group := b.extractLsb' 0 7

/-- The byte with bit 7 `top` and low bits `g`. -/
def byteOf (top : Bool) (g : Group) : Byte := BitVec.ofBool top ++ g

/-- `zext_14(l) | (zext_14(h) << 7)` (R110, R118). -/
def join7 (l h : Group) : V14 := l.setWidth 14 ||| (h.setWidth 14 <<< 7)

/-- `zext_16(l) | (zext_16(h) << 8)` (R118). -/
def join8 (l h : Byte) : BitVec 16 := l.setWidth 16 ||| (h.setWidth 16 <<< 8)

/-- The result of one varint byte (R110). -/
inductive VStep where
  /-- `Done(v)` -/
  | done (v : V14)
  /-- `Partial(lo)` -/
  | more (lo : Group)
  /-- `Overlong` -/
  | overlong
deriving DecidableEq, Repr

/-- VSTEP, one byte of a varint (R110). -/
def vstep (vhave : Bool) (vlow : Group) (b : Byte) : VStep :=
  if vhave then
    if bit7 b then .overlong else .done (join7 vlow (low7 b))
  else
    if bit7 b then .more (low7 b) else .done ((low7 b).setWidth 14)

/-- The result of the whole-sequence decode (R111). -/
inductive VDecode where
  | ok (v : V14) (consumed : Nat)
  | endOfStream
  | overlong
deriving DecidableEq, Repr

/-- VDECODE (R111). -/
def vdecode : List Byte → VDecode
  | [] => .endOfStream
  | b :: rest =>
    match vstep false 0#7 b with
    | .done v => .ok v 1
    | .overlong => .overlong
    | .more lo =>
      match rest with
      | [] => .endOfStream
      | b1 :: _ =>
        match vstep true lo b1 with
        | .done v => .ok v 2
        | _ => .overlong

/-- VENC, the reference varint encoder (R116). `none` refuses a value outside `[0, 16383]`. -/
def venc (n : Nat) : Option (List Byte) :=
  if n ≤ 127 then some [BitVec.ofNat 8 n]
  else if n ≤ 16383 then some [0x80#8 ||| BitVec.ofNat 8 (n % 128), BitVec.ofNat 8 (n / 128)]
  else none

/-- DUR, the two-byte duration read (R118), in carrier periods. -/
def dur (e : DurationEncoding) (b0 b1 : Byte) : Nat :=
  match e with
  | .split7 => (join7 (low7 b0) (low7 b1)).toNat
  | .le16 => (join8 b0 b1).toNat

/-- DURENC, the reference duration encoder (R120). `none` refuses a value outside the encoding's range. -/
def durenc (e : DurationEncoding) (d : Nat) : Option (Byte × Byte) :=
  match e with
  | .split7 => if d ≤ 16383 then some (BitVec.ofNat 8 (d % 128), BitVec.ofNat 8 (d / 128)) else none
  | .le16 => if d ≤ 65535 then some (BitVec.ofNat 8 (d % 256), BitVec.ofNat 8 (d / 256)) else none

/-- The bytes of a varint field (R83). -/
def varintBytes : Varint → List Byte
  | .one v => [byteOf false v]
  | .two l h => [byteOf true l, byteOf false h]

/-- The value of a varint field (R83). -/
def varintValue : Varint → V14
  | .one v => v.setWidth 14
  | .two l h => join7 l h

/-- The canonical field of a value (R83, R116): one byte up to 127, two above. -/
def canonicalVarint (n : Nat) : Option Varint :=
  if n ≤ 127 then some (.one (BitVec.ofNat 7 n))
  else if n ≤ 16383 then some (.two (BitVec.ofNat 7 (n % 128)) (BitVec.ofNat 7 (n / 128)))
  else none

end Sys2Proof.Machine
end

