-- ==== Sys2Proof/WellFormed.lean ====
section
/-! DEFINITION. Which instructions are well formed: the operand ranges of the opcode table (30_encoding.md R82, R87, R89, R93). An
ill-formed one still runs: the framer rejects it. The decoder never gives an `evWedged` with another event, see `Instr.wf`. -/

namespace Sys2Proof

/-- The kind bytes the block knows (R87). -/
def knownKind (k : Byte) : Bool :=
  k == Config.kindIr || k == Config.kindReset || k == Config.kindKeepalive

/-- The operand ranges of each row. IR_PATTERN is R93 with one high and one low duration per pulse (R82). The record `0xx1` of
EV_WEDGED overlaps EV_BYTE and EV_GTICK, which have priority (R222); it is EV_WEDGED's own only when the other two are absent (DEDUCED, log entry 11, safe). -/
def Instr.wf (P : Params) : Instr → Bool
  | .keepalive => true
  | .resetRequest => true
  | .ctrlBadPayload _ p => p != 0x00#8
  | .irPattern n cp ch ds =>
    decide (1 ≤ (Machine.varintValue n).toNat) && decide ((Machine.varintValue n).toNat ≤ P.maxPulses)
      && decide (Machine.varintValue ch ≤ Machine.varintValue cp)
      && decide (ds.length = 2 * (Machine.varintValue n).toNat)
  | .unrecognizedKind k => !(knownKind k)
  | .varint1 _ => true
  | .varint2 _ _ => true
  | .varintOverlong _ _ => true
  | .durationSplit7 _ _ _ _ => decide (P.durationEncoding = .split7)
  | .durationLe16 _ _ => decide (P.durationEncoding = .le16)
  | .evRst _ _ _ => true
  | .evByte _ _ _ => true
  | .evGtick _ => true
  | .evWedged acc gtick => acc.isNone && !gtick

end Sys2Proof
end

