-- ==== Sys2Proof/Decode.lean ====
section
/-! DEFINITION. Decoding (30_encoding.md R80 to R91) and, after it, the encoder. What the next bytes of the stream are read as
depends on where the framer stands, so the decoder takes that place as an argument. -/

namespace Sys2Proof

/-- What the next byte of the stream begins. -/
inductive Place where
  /-- A frame: the framer waits for a kind byte (R80). -/
  | message
  /-- A VARINT field of the IR header (R82, R83). -/
  | varint
  /-- A DUR field (R84), read under the instance's encoding. -/
  | duration (e : DurationEncoding)
  /-- Neither: a payload length, the second byte of a field in progress, or a byte that is discarded. -/
  | byte
deriving DecidableEq, Repr

/-- Why bytes are not one of the table's forms. -/
inductive DecodeError where
  /-- The bytes end inside the form (R111, "stream ends"). -/
  | endOfStream
  /-- A header varint has bit 7 set in its second byte (R89, VARINT_OVERLONG). -/
  | varintOverlong
  /-- A single byte in the middle of a field is no form of the table. -/
  | noForm
deriving DecidableEq, Repr

/-- One header varint and the bytes after it (R83, R88). -/
def decodeVarint : List Byte → Except DecodeError (Varint × List Byte)
  | [] => .error .endOfStream
  | b :: rest =>
    if Machine.bit7 b then
      match rest with
      | [] => .error .endOfStream
      | b1 :: rest1 =>
        if Machine.bit7 b1 then .error .varintOverlong
        else .ok (.two (Machine.low7 b) (Machine.low7 b1), rest1)
    else .ok (.one (Machine.low7 b), rest)

/-- `n` duration byte pairs and the bytes after them (R82, R84). -/
def decodeDurations : Nat → List Byte → Except DecodeError (List (Byte × Byte) × List Byte)
  | 0, bs => .ok ([], bs)
  | n + 1, b0 :: b1 :: rest =>
    match decodeDurations n rest with
    | .ok (ds, left) => .ok ((b0, b1) :: ds, left)
    | .error e => .error e
  | _ + 1, _ => .error .endOfStream

/-- An IR frame after its kind byte (R82, R88): three varints, then `4 * pulse_count` bytes. The values are not judged here. -/
def decodeIr (bs : List Byte) : Except DecodeError (Instr × List Byte) :=
  match decodeVarint bs with
  | .error e => .error e
  | .ok (n, bs1) =>
    match decodeVarint bs1 with
    | .error e => .error e
    | .ok (cp, bs2) =>
      match decodeVarint bs2 with
      | .error e => .error e
      | .ok (ch, bs3) =>
        match decodeDurations (2 * (Machine.varintValue n).toNat) bs3 with
        | .error e => .error e
        | .ok (ds, left) => .ok (.irPattern n cp ch ds, left)

/-- A control frame with kind byte `7E` or `7F` (R81, R135). -/
def decodeCtrl (kind : Byte) : List Byte → Except DecodeError (Instr × List Byte)
  | [] => .error .endOfStream
  | p :: rest =>
    if p = 0x00#8 then
      .ok (if kind = Config.kindKeepalive then .keepalive else .resetRequest, rest)
    else .ok (.ctrlBadPayload (decide (kind = Config.kindKeepalive)) p, rest)

/-- A frame (R80, R87). -/
def decodeMessage : List Byte → Except DecodeError (Instr × List Byte)
  | [] => .error .endOfStream
  | k :: rest =>
    if k = Config.kindIr then decodeIr rest
    else if k = Config.kindReset ∨ k = Config.kindKeepalive then decodeCtrl k rest
    else .ok (.unrecognizedKind k, rest)

/-- A VARINT field as an operation of the table (R83). -/
def decodeVarintForm : List Byte → Except DecodeError (Instr × List Byte)
  | [] => .error .endOfStream
  | b :: rest =>
    if Machine.bit7 b then
      match rest with
      | [] => .error .endOfStream
      | b1 :: rest1 =>
        if Machine.bit7 b1 then .ok (.varintOverlong (Machine.low7 b) (Machine.low7 b1), rest1)
        else .ok (.varint2 (Machine.low7 b) (Machine.low7 b1), rest1)
    else .ok (.varint1 (Machine.low7 b), rest)

/-- A DUR field as an operation of the table (R84). -/
def decodeDurationForm (e : DurationEncoding) : List Byte → Except DecodeError (Instr × List Byte)
  | b0 :: b1 :: rest =>
    match e with
    | .split7 => .ok (.durationSplit7 (Machine.bit7 b0) (Machine.low7 b0) (Machine.bit7 b1) (Machine.low7 b1), rest)
    | .le16 => .ok (.durationLe16 b0 b1, rest)
  | _ => .error .endOfStream

/-- The form that the bytes begin with at a place, or the reason there is none. -/
def decodeBytes (p : Place) (bs : List Byte) : Except DecodeError (Instr × List Byte) :=
  match p with
  | .message => decodeMessage bs
  | .varint => decodeVarintForm bs
  | .duration e => decodeDurationForm e bs
  | .byte => .error .noForm

/-- The operation that a nonempty run of bytes begins with. Bytes that are no whole form of the table are EV_BYTE one by one,
since any accepted byte is (R130). -/
def decodeStream (p : Place) (b : Byte) (bs : List Byte) : Instr × List Byte :=
  match decodeBytes p (b :: bs) with
  | .ok r => r
  | .error _ => (.evByte b false false, bs)

/-- The event of a cycle's record, by the priority of R222. The table's bits are (rst, acc, gtick, wedged) with
`acc = rx_valid & rx_ready`, so a byte offered without `ready` is no part of the event. `none` is the record `0000`. -/
def decodeInput (ready : Bool) (i : Input) : Option Instr :=
  if i.rst then some (.evRst (if ready then i.rx else none) i.gtick i.wedged)
  else match (if ready then i.rx else none) with
    | some b => some (.evByte b i.gtick i.wedged)
    | none => if i.gtick then some (.evGtick i.wedged) else if i.wedged then some (.evWedged none false) else none

/-- The operation a trace line begins with and the bytes left over. -/
def decodeItem (p : Place) (ready : Bool) : Item → Option (Instr × List Byte)
  | .cycle i => (decodeInput ready i).map (fun x => (x, []))
  | .bytes b bs => some (decodeStream p b bs)

/-! The encoder, from the same tables. -/

/-- The bytes of a duration pair list (R82). -/
def durationBytes : List (Byte × Byte) → List Byte
  | [] => []
  | (b0, b1) :: ds => b0 :: b1 :: durationBytes ds

/-- The trace line of an operation (R81 to R84, R20, R94). -/
def encode : Instr → Item
  | .keepalive => .bytes 0x7F#8 [0x00#8]
  | .resetRequest => .bytes 0x7E#8 [0x00#8]
  | .ctrlBadPayload k p => .bytes (if k then 0x7F#8 else 0x7E#8) [p]
  | .irPattern n cp ch ds =>
    .bytes 0x01#8 (Machine.varintBytes n ++ Machine.varintBytes cp ++ Machine.varintBytes ch ++ durationBytes ds)
  | .unrecognizedKind k => .bytes k []
  | .varint1 v => .bytes (Machine.byteOf false v) []
  | .varint2 l h => .bytes (Machine.byteOf true l) [Machine.byteOf false h]
  | .varintOverlong l x => .bytes (Machine.byteOf true l) [Machine.byteOf true x]
  | .durationSplit7 x0 l x1 h => .bytes (Machine.byteOf x0 l) [Machine.byteOf x1 h]
  | .durationLe16 l h => .bytes l [h]
  | .evRst acc gtick wedged => .cycle { rst := true, rx := acc, gtick := gtick, wedged := wedged }
  | .evByte b gtick wedged => .cycle { rst := false, rx := some b, gtick := gtick, wedged := wedged }
  | .evGtick wedged => .cycle { rst := false, rx := none, gtick := true, wedged := wedged }
  | .evWedged acc gtick => .cycle { rst := false, rx := acc, gtick := gtick, wedged := true }

/-- The bytes of an operation's trace line, empty for an event. -/
def encodeBytes (i : Instr) : List Byte :=
  match encode i with
  | .bytes b bs => b :: bs
  | .cycle _ => []

/-- Where in the stream an operation's bytes are read as that operation. -/
def placeOf : Instr → Place
  | .keepalive => .message
  | .resetRequest => .message
  | .ctrlBadPayload _ _ => .message
  | .irPattern _ _ _ _ => .message
  | .unrecognizedKind _ => .message
  | .varint1 _ => .varint
  | .varint2 _ _ => .varint
  | .varintOverlong _ _ => .varint
  | .durationSplit7 _ _ _ _ => .duration .split7
  | .durationLe16 _ _ => .duration .le16
  | .evRst _ _ _ => .byte
  | .evByte _ _ _ => .byte
  | .evGtick _ => .byte
  | .evWedged _ _ => .byte

/-- The trace notation `IR cp=P ch=H (h0,l0) ...` (R94): the canonical IR frame, refused where an operand has no encoding. -/
def irPatternOf (e : DurationEncoding) (cp ch : Nat) (pairs : List (Nat × Nat)) : Option Instr :=
  match canonicalAll pairs.length cp ch, durations pairs with
  | some (n, p, h), some ds => some (.irPattern n p h ds)
  | _, _ => none
where
  canonicalAll (n cp ch : Nat) : Option (Varint × Varint × Varint) :=
    match Machine.canonicalVarint n, Machine.canonicalVarint cp, Machine.canonicalVarint ch with
    | some n, some p, some h => some (n, p, h)
    | _, _, _ => none
  durations : List (Nat × Nat) → Option (List (Byte × Byte))
    | [] => some []
    | (hi, lo) :: rest =>
      match Machine.durenc e hi, Machine.durenc e lo, durations rest with
      | some a, some b, some ds => some (a :: b :: ds)
      | _, _, _ => none

/-! The opcode table's own numbering of words. The table numbers a row's bits with its FIRST byte highest (KEEPALIVE
`01111111 00000000` is 0x7F00, 98_reader.md), and an event's four bits (rst, acc, gtick, wedged) with rst highest. Log entry 9. -/

/-- Whether the place of a two-byte or one-byte table word is a frame, a varint or a duration. One-byte words below 0x80 are also
kind bytes: 0x01 is taken as the IR_PATTERN row, the others as the VARINT_1 row, and words with bit 7 set as UNRECOGNIZED_KIND. -/
def tablePlace (nbits w : Nat) : Place :=
  if nbits = 8 then
    if w = 0x01 ∨ 0x80 ≤ w then .message else .varint
  else if w / 256 = 0x7E ∨ w / 256 = 0x7F then .message
  else if 0x80 ≤ w / 256 then .varint
  else .duration .split7

/-- The trace line whose bits are the table word: an event for 4 bits, otherwise bytes. An IR_PATTERN row has only its kind byte
in the table; its three header varints are bytes of zeros, which ask for no duration bytes. -/
def tableItem (nbits w : Nat) : Option Item :=
  if nbits = 4 then
    some (.cycle { rst := w.testBit 3, rx := if w.testBit 2 then some 0x00#8 else none, gtick := w.testBit 1, wedged := w.testBit 0 })
  else if nbits = 8 then
    some (.bytes (BitVec.ofNat 8 w) (if w = 0x01 then [0x00#8, 0x00#8, 0x00#8] else []))
  else if nbits = 16 then some (.bytes (BitVec.ofNat 8 (w / 256)) [BitVec.ofNat 8 w])
  else none

/-- The instruction the decoder reads from a table word: a whole form at the word's place. -/
def decodeTableWord (nbits w : Nat) : Option Instr :=
  match tableItem nbits w with
  | none => none
  | some (.cycle i) => decodeInput true i
  | some (.bytes b bs) =>
    match decodeBytes (tablePlace nbits w) (b :: bs) with
    | .ok (i, []) => some i
    | _ => none

end Sys2Proof
end

