-- ==== Sys2Proof/Machine/State.lean ====
section
/-! DEFINITION. The state of the block, 10_state.md, as plain data: the framer's and the generator's registers and the FrameBuffer,
and around that record of the block its surroundings (instance parameters, coming inputs, outputs so far). -/

namespace Sys2Proof.Machine

/-- `fstate`, with its encoding of R30 in this order. -/
inductive FState where
  | await
  | recv
  | quar
  | xmit
deriving DecidableEq, Repr

/-- `field`, with its encoding of R31 in this order; the codes 5, 6 and 7 are never written (R234). -/
inductive Field where
  | plen
  | pcount
  | cper
  | chigh
  | pairs
  | reserved5
  | reserved6
  | reserved7
deriving DecidableEq, Repr

/-- The rejection causes in the order of their codes 0 to 7 (60_exceptions.md R220). -/
inductive Cause where
  | none
  | badKind
  | badPayloadLen
  | varintOverlong
  | badPulseCount
  | badCarrier
  | fbOverflow
  | timeout
deriving DecidableEq, Repr

/-- `gstate` (R43). -/
inductive GState where
  | idle
  | run
deriving DecidableEq, Repr

/-- The framer registers, R30 to R42. The counters and cursors are natural numbers (R12; DESIGN CHOICE, log entry 8, unsafe only in
states that no run reaches). -/
structure Framer where
  fstate : FState
  field : Field
  vhave : Bool
  vlow : Group
  kind : Byte
  pc : Nat
  cper : V14
  chigh : V14
  pbase : Nat
  need : Nat
  wr : Nat
  g : Nat
  q : Nat
  rejCause : Cause
deriving DecidableEq, Repr

/-- The generator registers, R43 to R49. -/
structure Generator where
  gstate : GState
  seg : Nat
  rem : Nat
  c : V14
  gP : V14
  gH : V14
  gpc : Nat
  rd : Nat
deriving DecidableEq, Repr

/-- The FrameBuffer (R50, R60): the bytes written since power-on, addresses strictly rising. An unlisted address holds no
written byte; what it reads as is `fbByte`. -/
abbrev Memory := List Host.Cell

/-- The Moore outputs of a cycle (R21). -/
structure Moore where
  rxReady : Bool
  bgYield : Bool
  irOut : Bool
  modConnect : Bool
  pwmEnable : Bool
  tickIrqEn : Bool
  hasEnded : Bool
  status : BitVec 16
deriving DecidableEq, Repr

/-- The pulse outputs of a cycle (R21), 0 unless a rule fires. -/
structure Pulses where
  frameAccepted : Bool := false
  frameKind : Byte := 0x00#8
  reject : Bool := false
  rejectCause : Cause := .none
  irDone : Bool := false
  transportReinit : Bool := false
  genDone : Bool := false
  startErr : Bool := false
  fatal : Bool := false
deriving DecidableEq, Repr

/-- The output record of one cycle (R21). -/
structure Output where
  moore : Moore
  pulses : Pulses
deriving DecidableEq, Repr

/-- The block's own state `S = (F, G, FB)` (R8): "A model's state record has exactly these fields" (R52), R30 to R50 and nothing else. -/
structure Block where
  /-- The framer registers. -/
  frm : Framer
  /-- The generator registers. -/
  gen : Generator
  /-- The FrameBuffer. -/
  fb : Memory
deriving DecidableEq, Repr

/-- What stands around the block and is no state of it (DESIGN CHOICE, log entries 1, 2 and 3, safe): the host's step takes a state
alone, where the spec's takes an input record and gives an output record. The block's rules see `par`, and nothing else of it. -/
structure Surroundings where
  /-- The instance's parameters (R10, R254). No register holds them and no rule writes them. -/
  par : Params
  /-- The environment's coming inputs, first to come first (R6, R94); the transport's bytes that the block has not taken are here. -/
  script : List Item
  /-- The output records of the cycles so far, newest first (R7, R21). -/
  trace : List Output
deriving DecidableEq, Repr

/-- The block in its surroundings. -/
structure State extends Block, Surroundings
deriving DecidableEq, Repr

/-- Why the model stops. Every one is a state that no run from `State.reset` reaches (R51), and safe: the block goes on where the
model stops (log entries 6 and 7). -/
inductive Fault where
  /-- R234: a cycle without reset in RECV with `field` 5, 6 or 7. `after` is what the block holds after the cycle, the framer
  unchanged and the generator stepped; `out` its outputs, `fatal` among them. Raised by `blockStep`; safe. -/
  | fatal (after : Block) (out : Output)
  /-- R234, D31 and 93 item 13: a cycle without reset with the generator in RUN outside R51's invariant 8. `after` and `out` are what
  the rules of the cycle give. Raised by `blockStep`; safe. -/
  | generatorState (after : Block) (out : Output)
  /-- R234 and 93 item 14: a read of FB at an address outside `[0, FB_CAPACITY)`. Raised by `memRead`; safe. -/
  | memRead (a : Nat)
  /-- R60: a write to FB at an address outside `[0, FB_CAPACITY)`. Raised by `memWrite`; safe. -/
  | memWrite (a : Nat)
deriving DecidableEq, Repr

/-- Why an instruction has no meaning. No instruction of this model is refused. -/
inductive Refusal where
  /-- An arm of `exec` that has no meaning yet. Raised by no arm; safe. -/
  | notModelled (mnemonic : String)
deriving DecidableEq, Repr

/-- The framer registers after reset (R250). -/
def Framer.reset : Framer where
  fstate := .await
  field := .plen
  vhave := false
  vlow := 0#7
  kind := 0x00#8
  pc := 0
  cper := 0#14
  chigh := 0#14
  pbase := 0
  need := 0
  wr := 0
  g := 0
  q := 0
  rejCause := .none

/-- The generator registers after reset (R250). -/
def Generator.reset : Generator where
  gstate := .idle
  seg := 0
  rem := 0
  c := 0#14
  gP := 0#14
  gH := 0#14
  gpc := 0
  rd := 0

/-- The machine after the power-on reset (R250, R254): no byte of FB written yet, nothing offered, no cycle run. -/
def State.reset : State where
  frm := Framer.reset
  gen := Generator.reset
  fb := []
  par := Config.params
  script := []
  trace := []

end Sys2Proof.Machine
end

