-- ==== Sys2Proof/Machine/Flags.lean ====
section
/-! DEFINITION. The outputs that are functions of the state alone: hand-shake, background yield, the status word and the
generator's outputs (10_state.md R22, R23, R26; 42_waveform_generator.md R189, R190, R192). -/

namespace Sys2Proof.Machine

/-- The code of `fstate` (R30). -/
def fstateCode : FState → BitVec 2
  | .await => 0#2
  | .recv => 1#2
  | .quar => 2#2
  | .xmit => 3#2

/-- The code of `field` (R31). -/
def fieldCode : Field → BitVec 3
  | .plen => 0#3
  | .pcount => 1#3
  | .cper => 2#3
  | .chigh => 3#3
  | .pairs => 4#3
  | .reserved5 => 5#3
  | .reserved6 => 6#3
  | .reserved7 => 7#3

/-- The code of a rejection cause (R220). -/
def causeCode : Cause → BitVec 3
  | .none => 0#3
  | .badKind => 1#3
  | .badPayloadLen => 2#3
  | .varintOverlong => 3#3
  | .badPulseCount => 4#3
  | .badCarrier => 5#3
  | .fbOverflow => 6#3
  | .timeout => 7#3

/-- The code of `gstate` (R43). -/
def gstateCode : GState → BitVec 1
  | .idle => 0#1
  | .run => 1#1

/-- `rx_ready` (R22). -/
def rxReady (F : Framer) : Bool :=
  match F.fstate with
  | .await => true
  | .recv => true
  | .quar => true
  | .xmit => false

/-- `bg_yield` (R23). -/
def bgYield (F : Framer) : Bool := decide (F.fstate = .await)

/-- `status[15:0]`, from bit 15 down: reserved, `rej_cause`, reserved, `gstate`, `vhave`, `field`, `fstate` (R26). -/
def statusWord (F : Framer) (G : Generator) : BitVec 16 :=
  0#5 ++ causeCode F.rejCause ++ 0#1 ++ gstateCode G.gstate ++ BitVec.ofBool F.vhave ++ fieldCode F.field ++ fstateCode F.fstate

/-- `Peff`, the effective carrier period in oscillator cycles (R192). -/
def peff (G : Generator) : Nat := max G.gP.toNat 1

/-- An even segment is carrier-on (R44). -/
def carrierOn (G : Generator) : Bool := decide (G.seg % 2 = 0)

/-- `has_ended` (R190). -/
def hasEnded (G : Generator) : Bool := decide (G.gstate = .idle)

/-- `ir_out` (R189). -/
def irOut (G : Generator) : Bool := decide (G.gstate = .run) && carrierOn G && decide (G.c < G.gH)

/-- `mod_connect` (R190). -/
def modConnect (G : Generator) : Bool := decide (G.gstate = .run) && carrierOn G

/-- The Moore outputs (R21). -/
def moore (F : Framer) (G : Generator) : Moore where
  rxReady := rxReady F
  bgYield := bgYield F
  irOut := irOut G
  modConnect := modConnect G
  pwmEnable := decide (G.gstate = .run)
  tickIrqEn := decide (G.gstate = .run)
  hasEnded := hasEnded G
  status := statusWord F G

end Sys2Proof.Machine
end

