-- ==== Sys2Proof/Machine/Ops.lean ====
section
/-! DEFINITION. The named operations: FrameBuffer access (20_memory.md), rejection and the return from quarantine (the block's
exception entry and return, 60_exceptions.md R223, R224), RESET_STATE, and how outcomes chain. -/

namespace Sys2Proof.Machine

/-- The written byte at an address, if any. -/
def Memory.read : Memory → Nat → Option Byte
  | [], _ => none
  | (k, v) :: m, a => if k = a then some v else Memory.read m a

/-- Write one byte, keeping the addresses strictly rising. -/
def Memory.write : Memory → Nat → Byte → Memory
  | [], a, v => [(a, v)]
  | (k, u) :: m, a, v =>
    if a < k then (a, v) :: (k, u) :: m
    else if a = k then (a, v) :: m
    else (k, u) :: Memory.write m a v

/-- The canonical form: addresses strictly rising. Every listed address is a written byte, and an unlisted one is none, so no entry
says what an unlisted address would. -/
def Memory.wf : Memory → Bool
  | [] => true
  | [_] => true
  | (a, _) :: (b, v) :: m => decide (a < b) && Memory.wf ((b, v) :: m)

/-- Every listed address exists on the instance (R60). -/
def Memory.within (cap : Nat) (m : Memory) : Bool := m.all (fun cell => decide (cell.1 < cap))

/-- What an address of FB holds: the byte written there, or what it held at power-on, which nothing constrains (R61). -/
def fbByte (m : Memory) (a : Nat) : Byte := (m.read a).getD (Config.fbPowerOn a)

/-- `MemRead(a, 1)` (R13, R63). An address outside FB is the fault of R234. -/
def memRead (P : Params) (m : Memory) (a : Nat) : Except Fault Byte :=
  if a < P.fbCapacity then .ok (fbByte m a) else .error (.memRead a)

/-- `MemWrite(a, 1, b)` (R13, R62). An address outside FB does not exist (R60). -/
def memWrite (P : Params) (m : Memory) (a : Nat) (b : Byte) : Except Fault Memory :=
  if a < P.fbCapacity then .ok (m.write a b) else .error (.memWrite a)

/-- The framer's FB write of a cycle, at most one byte (R62). -/
def storeByte (P : Params) (m : Memory) : Option (Nat × Byte) → Except Fault Memory
  | none => .ok m
  | some (a, b) => memWrite P m a b

/-- `DUR(MemRead(a, 1), MemRead(a + 1, 1))` (R63, R118). -/
def readDuration (P : Params) (m : Memory) (a : Nat) : Except Fault Nat :=
  match memRead P m a with
  | .error e => .error e
  | .ok b0 =>
    match memRead P m (a + 1) with
    | .error e => .error e
    | .ok b1 => .ok (dur P.durationEncoding b0 b1)

/-- The operands of a generator start (R141, R181). -/
structure Start where
  pc : Nat
  cp : V14
  ch : V14
  pb : Nat
deriving DecidableEq, Repr

/-- What the framer's part of a cycle gives (R130): its next registers, at most one FB write, at most one start, its pulses. -/
structure FrmResult where
  frm : Framer
  write : Option (Nat × Byte) := none
  start : Option Start := none
  pulses : Pulses := {}
deriving DecidableEq, Repr

/-- What the generator's part of a cycle gives (R180 to R188): its next registers and its pulses. -/
structure GenResult where
  gen : Generator
  genDone : Bool := false
  startErr : Bool := false
deriving DecidableEq, Repr

/-- REJECT(c), the block's exception entry (R144, R223): it saves the cause, enters quarantine and pulses `reject`. `F` holds what
the cycle's rule had assigned already, and `write` the byte it had stored. -/
def reject (c : Cause) (F : Framer) (write : Option (Nat × Byte)) : FrmResult where
  frm := { F with fstate := .quar, q := 0, g := 0, vhave := false, rejCause := c }
  write := write
  pulses := { reject := true, rejectCause := c }

/-- Q_TICK, the block's exception return when the silence is long enough (R146, R224). -/
def quarantineTick (P : Params) (F : Framer) : Framer :=
  if P.tClear ≤ F.q + 1 then { F with fstate := .await, q := 0 } else { F with q := F.q + 1 }

/-- RESET_STATE(S) (R250): every register at its reset value, FB kept (R251). -/
def resetState (S : Block) : Block := { S with frm := Framer.reset, gen := Generator.reset }

/-- The state with other coming inputs. -/
def State.withScript (s : State) (script : List Item) : State := { s with script := script }

/-- The state after a cycle of the block: its next state `S'`, and its outputs `O` added to the record (R7). -/
def State.advance (s : State) (r : Block × Output) : State := { s with toBlock := r.1, trace := r.2 :: s.trace }

/-- A run of bytes put before the coming inputs. -/
def pushBytes (bs : List Byte) (script : List Item) : List Item :=
  match bs with
  | [] => script
  | b :: rest => .bytes b rest :: script

/-- The transport keeps bytes the block has not accepted and offers them again (R20, R256). -/
def State.hold (s : State) (bs : List Byte) : State := { s with script := pushBytes bs s.script }

/-- Go on from the next state of an outcome; a fault or a refusal ends the run. -/
def andThen (o : Host.Outcome State Fault Refusal) (f : State → Host.Outcome State Fault Refusal) :
    Host.Outcome State Fault Refusal :=
  match o with
  | .next s => f s
  | .fault r => .fault r
  | .refused r => .refused r

end Sys2Proof.Machine
end

