-- ==== Sys2Proof/Machine/Framer.lean ====
section
/-! DEFINITION. The framer, 41_framer.md: one definition per rule. `F` is the framer at the start of the cycle. -/

namespace Sys2Proof.Machine

/-- ACCEPT_CTRL (R140). -/
def acceptCtrl (F : Framer) (write : Option (Nat × Byte)) : FrmResult where
  frm := { F with fstate := .await }
  write := write
  pulses := { frameAccepted := true, frameKind := F.kind }

/-- ACCEPT_IR (R141): the start is issued in the accepting cycle. -/
def acceptIr (F : Framer) (write : Option (Nat × Byte)) : FrmResult where
  frm := { F with fstate := .xmit }
  write := write
  start := some { pc := F.pc, cp := F.cper, ch := F.chigh, pb := F.pbase }
  pulses := { frameAccepted := true, frameKind := Config.kindIr }

/-- FIRST_BYTE(b) (R132). -/
def firstByte (F : Framer) (b : Byte) : FrmResult :=
  let F1 := { F with wr := 1, g := 0, vhave := false, kind := b }
  let w := some (0, b)
  if b = Config.kindIr then { frm := { F1 with fstate := .recv, field := .pcount }, write := w }
  else if b = Config.kindReset ∨ b = Config.kindKeepalive then
    { frm := { F1 with fstate := .recv, field := .plen }, write := w }
  else reject .badKind F1 w

/-- PLEN_BYTE(b) (R135). -/
def plenByte (F : Framer) (b : Byte) (w : Option (Nat × Byte)) : FrmResult :=
  if b = 0x00#8 then acceptCtrl F w else reject .badPayloadLen F w

/-- A byte of a header varint: `onDone` is what the field does with the decoded value, `vhave` already cleared (R136 to R138). -/
def varintByte (F : Framer) (b : Byte) (w : Option (Nat × Byte)) (onDone : Framer → V14 → FrmResult) : FrmResult :=
  match vstep F.vhave F.vlow b with
  | .more lo => { frm := { F with vhave := true, vlow := lo }, write := w }
  | .overlong => reject .varintOverlong F w
  | .done v => onDone { F with vhave := false } v

/-- PCOUNT_BYTE(b) (R136). -/
def pcountByte (P : Params) (F : Framer) (b : Byte) (w : Option (Nat × Byte)) : FrmResult :=
  varintByte F b w fun F1 v =>
    if 1 ≤ v.toNat ∧ v.toNat ≤ P.maxPulses then { frm := { F1 with pc := v.toNat, field := .cper }, write := w }
    else reject .badPulseCount F1 w

/-- CPER_BYTE(b) (R137). -/
def cperByte (F : Framer) (b : Byte) (w : Option (Nat × Byte)) : FrmResult :=
  varintByte F b w fun F1 v => { frm := { F1 with cper := v, field := .chigh }, write := w }

/-- CHIGH_BYTE(b) (R138). `F.wr` already counts this byte, so it is the address of the next one. -/
def chighByte (F : Framer) (b : Byte) (w : Option (Nat × Byte)) : FrmResult :=
  varintByte F b w fun F1 v =>
    if v ≤ F1.cper then
      { frm := { F1 with chigh := v, field := .pairs, pbase := F1.wr, need := 4 * F1.pc }, write := w }
    else reject .badCarrier F1 w

/-- PAIRS_BYTE(b) (R139). The byte is stored and not looked at. `need` is 1 or more in every reachable state (log entry 8). -/
def pairsByte (F : Framer) (w : Option (Nat × Byte)) : FrmResult :=
  let F1 := { F with need := F.need - 1 }
  if F.need = 1 then acceptIr F1 w else { frm := F1, write := w }

/-- The fatal path of R234: the framer keeps its registers and pulses `fatal`. -/
def fatalPath (F : Framer) : FrmResult where
  frm := F
  pulses := { fatal := true }

/-- RECV_BYTE(b) (R134): rearm the guard, store the byte or overflow, then the field's own rule. -/
def recvByte (P : Params) (F : Framer) (b : Byte) : FrmResult :=
  let F0 := { F with g := 0 }
  if F.wr = P.fbCapacity then reject .fbOverflow F0 none
  else
    let F1 := { F0 with wr := F.wr + 1 }
    let w := some (F.wr, b)
    match F.field with
    | .plen => plenByte F1 b w
    | .pcount => pcountByte P F1 b w
    | .cper => cperByte F1 b w
    | .chigh => chighByte F1 b w
    | .pairs => pairsByte F1 w
    | .reserved5 => fatalPath F
    | .reserved6 => fatalPath F
    | .reserved7 => fatalPath F

/-- GUARD_TICK (R142). -/
def guardTick (P : Params) (F : Framer) : FrmResult :=
  if P.tInterbyte ≤ F.g + 1 then reject .timeout F none else { frm := { F with g := F.g + 1 } }

/-- XMIT_WAIT (R148). -/
def xmitWait (F : Framer) (gs : GState) : FrmResult :=
  match gs with
  | .idle => { frm := { F with fstate := .await }, pulses := { irDone := true } }
  | .run => { frm := F }

/-- The codes of `field` that no rule writes (R234). -/
def reservedField (f : Field) : Bool :=
  match f with
  | .plen => false
  | .pcount => false
  | .cper => false
  | .chigh => false
  | .pairs => false
  | .reserved5 => true
  | .reserved6 => true
  | .reserved7 => true

/-- The byte accepted in a cycle, `acc = rx_valid and rx_ready` (R20, R130). -/
def accepted (F : Framer) (I : Input) : Option Byte := if rxReady F then I.rx else none

/-- The framer in RECV (R130, R134, R142, R143). -/
def recvStep (P : Params) (F : Framer) (I : Input) : FrmResult :=
  if reservedField F.field then fatalPath F
  else
    match accepted F I with
    | some b => recvByte P F b
    | none => if I.gtick then guardTick P F else { frm := F }

/-- The framer in QUAR (R130, R145, R146, R147): `wedged` adds its pulse to whatever else the cycle does. -/
def quarStep (P : Params) (F : Framer) (I : Input) : FrmResult :=
  let pulses : Pulses := { transportReinit := I.wedged }
  match accepted F I with
  | some _ => { frm := { F with q := 0 }, pulses := pulses }
  | none => if I.gtick then { frm := quarantineTick P F, pulses := pulses } else { frm := F, pulses := pulses }

/-- FRM_STEP(S, I) (R130). -/
def frmStep (P : Params) (F : Framer) (gs : GState) (I : Input) : FrmResult :=
  match F.fstate with
  | .await =>
    match accepted F I with
    | some b => firstByte F b
    | none => { frm := F }
  | .recv => recvStep P F I
  | .quar => quarStep P F I
  | .xmit => xmitWait F gs

end Sys2Proof.Machine
end

