-- ==== Sys2Proof/Machine/Generator.lean ====
section
/-! DEFINITION. The waveform generator, 42_waveform_generator.md: one definition per rule. -/

namespace Sys2Proof.Machine

/-- START with `pc = 0` (R182): it completes at once. -/
def startEmpty (G : Generator) : GenResult where
  gen := { G with gstate := .idle, seg := 0, rem := 0, c := 0#14 }
  genDone := true

/-- START with `pc > MAX_PULSES` (R183): as R182, with `start_err`. -/
def startRefused (G : Generator) : GenResult := { startEmpty G with startErr := true }

/-- The normal START (R181), reading FB with the cycle's write applied (R64). -/
def startNormal (P : Params) (m : Memory) (st : Start) (G : Generator) : Except Fault GenResult :=
  match readDuration P m st.pb with
  | .error e => .error e
  | .ok d =>
    .ok { gen := { G with gP := st.cp, gH := st.ch, gpc := st.pc, seg := 0, c := 0#14, rem := d, rd := st.pb + 2, gstate := .run } }

/-- START(pc, cp, ch, pb, FB') (R181 to R183). -/
def startGen (P : Params) (m : Memory) (st : Start) (G : Generator) : Except Fault GenResult :=
  if st.pc = 0 then .ok (startEmpty G)
  else if P.maxPulses < st.pc then .ok (startRefused G)
  else startNormal P m st G

/-- The start the framer issued in the cycle, if any (R8). -/
def startOrKeep (P : Params) (m : Memory) (st : Option Start) (G : Generator) : Except Fault GenResult :=
  match st with
  | none => .ok { gen := G }
  | some st => startGen P m st G

/-- COMPLETE (R188). -/
def complete (G : Generator) : GenResult where
  gen := { G with gstate := .idle, seg := G.seg + 1, rem := 0 }
  genDone := true

/-- ADVANCE (R187). -/
def advance (P : Params) (m : Memory) (G : Generator) : Except Fault GenResult :=
  if G.seg + 1 = 2 * G.gpc then .ok (complete G)
  else
    match readDuration P m G.rd with
    | .error e => .error e
    | .ok d => .ok { gen := { G with seg := G.seg + 1, rem := d, rd := G.rd + 2 } }

/-- CARRIER_TICK (R186). -/
def carrierTick (P : Params) (m : Memory) (G : Generator) : Except Fault GenResult :=
  if 2 ≤ G.rem then .ok { gen := { G with rem := G.rem - 1 } } else advance P m G

/-- GEN_STEP(S) (R180, R184, R185). -/
def genStep (P : Params) (m : Memory) (G : Generator) : Except Fault GenResult :=
  match G.gstate with
  | .idle => .ok { gen := G }
  | .run =>
    if G.c.toNat + 1 < peff G then .ok { gen := { G with c := G.c + 1#14 } }
    else carrierTick P m { G with c := 0#14 }

/-- R51, invariant 8: what a generator in RUN satisfies in every reachable state. -/
abbrev generatorLegal (P : Params) (F : Framer) (G : Generator) : Prop :=
  G.gstate = .run →
    F.fstate = .xmit ∧ 1 ≤ G.gpc ∧ G.gpc ≤ P.maxPulses ∧ G.seg < 2 * G.gpc ∧ G.c.toNat < peff G ∧ G.gH ≤ G.gP ∧
      G.rd = F.pbase + 2 * (G.seg + 1) ∧ G.rd ≤ F.wr

end Sys2Proof.Machine
end

