-- ==== Sys2Proof/Machine/Cycle.lean ====
section
/-! DEFINITION. One clock cycle, `step(S, I)` of 00_scope.md R8, and the delivery of bytes over several cycles. -/

namespace Sys2Proof.Machine

/-- The outputs of a cycle: the Moore outputs of the state it starts in, with the cycle's pulses (R7, R21). -/
def outputOf (S : Block) (p : Pulses) : Output := { moore := moore S.frm S.gen, pulses := p }

/-- `step(S, I) -> (S', O)`, one clock cycle of the block (R7, R8). Reset dominates. Otherwise the generator steps, the framer steps, at
most one byte is written, and a start replaces the generator's step. The two unreachable cases R234 asks a model to fault on come last,
with what the rules give. -/
def blockStep (P : Params) (S : Block) (I : Input) : Except Fault (Block × Output) :=
  if I.rst then .ok (resetState S, outputOf S {})
  else
    match genStep P S.fb S.gen with
    | .error e => .error e
    | .ok g =>
      let r := frmStep P S.frm S.gen.gstate I
      match storeByte P S.fb r.write with
      | .error e => .error e
      | .ok fb =>
        match startOrKeep P fb r.start g.gen with
        | .error e => .error e
        | .ok st =>
          let S1 : Block := { frm := r.frm, gen := st.gen, fb := fb }
          let o := outputOf S { r.pulses with genDone := g.genDone || st.genDone, startErr := st.startErr }
          if r.pulses.fatal then .error (.fatal S1 o)
          else if generatorLegal P S.frm S.gen then .ok (S1, o)
          else .error (.generatorState S1 o)

/-- One clock cycle of the block in its surroundings. -/
def cycle (I : Input) (s : State) : Host.Outcome State Fault Refusal :=
  match blockStep s.par s.toBlock I with
  | .error e => .fault e
  | .ok r => .next (s.advance r)

/-- Successive cycles, one input record each (R6, R9). -/
def cycles : List Input → State → Host.Outcome State Fault Refusal
  | [], s => .next s
  | I :: Is, s => andThen (cycle I s) (cycles Is)

/-- The record of a cycle that offers a byte and nothing else (R94, `BYTE`). -/
def offer (b : Byte) : Input := { rst := false, rx := some b, gtick := false, wedged := false }

/-- Offer bytes, one per cycle. A byte offered while `rx_ready = 0` is not accepted: the transport holds it and those behind it
(R20, R256), and this delivery ends. One cycle per byte with no other input is the model's (DESIGN CHOICE, log entry 10, safe). -/
def deliver : List Byte → State → Host.Outcome State Fault Refusal
  | [], s => .next s
  | b :: bs, s =>
    if rxReady s.frm then andThen (cycle (offer b) s) (deliver bs)
    else andThen (cycle (offer b) s) fun t => .next (t.hold (b :: bs))

end Sys2Proof.Machine
end

