-- ==== Sys2Proof/Machine/Events.lean ====
section
/-! DEFINITION. The meanings of the input events: one clock cycle with the event's record (41_framer.md R130, R142, R146, R147;
70_reset_and_hazards.md R250). -/

namespace Sys2Proof.Machine

/-- A cycle with an input record. A byte it offers while `rx_ready = 0` is not accepted and the transport keeps it (R20, R256). -/
def eventCycle (I : Input) (s : State) : Host.Outcome State Fault Refusal :=
  if rxReady s.frm then cycle I s else andThen (cycle I s) fun t => .next (t.hold I.rx.toList)

/-- EV_RST, `1xxx` (R250). -/
def execEvRst (acc : Option Byte) (gtick wedged : Bool) (s : State) : Host.Outcome State Fault Refusal :=
  eventCycle { rst := true, rx := acc, gtick := gtick, wedged := wedged } s

/-- EV_BYTE, `01xx` (R130); in XMIT no byte is accepted (R131, R149). -/
def execEvByte (b : Byte) (gtick wedged : Bool) (s : State) : Host.Outcome State Fault Refusal :=
  eventCycle { rst := false, rx := some b, gtick := gtick, wedged := wedged } s

/-- EV_GTICK, `001x` (R142, R146). -/
def execEvGtick (wedged : Bool) (s : State) : Host.Outcome State Fault Refusal :=
  eventCycle { rst := false, rx := none, gtick := true, wedged := wedged } s

/-- EV_WEDGED, `0xx1` (R147), together with the cycle's other inputs. -/
def execEvWedged (acc : Option Byte) (gtick : Bool) (s : State) : Host.Outcome State Fault Refusal :=
  eventCycle { rst := false, rx := acc, gtick := gtick, wedged := true } s

end Sys2Proof.Machine
end

