-- ==== Sys2Proof/Machine/Fields.lean ====
section
/-! DEFINITION. The meanings of the field forms: the field's bytes go to the framer one per cycle, and the framer's `field` decides
what they do (40_varint_decoder.md R110, R118; 41_framer.md R136 to R139). -/

namespace Sys2Proof.Machine

/-- VARINT_1, `0vvvvvvv` (R83, R110). -/
def execVarint1 (v : Group) (s : State) : Host.Outcome State Fault Refusal := deliver [byteOf false v] s

/-- VARINT_2, `1lllllll 0hhhhhhh` (R83, R110). -/
def execVarint2 (l h : Group) (s : State) : Host.Outcome State Fault Refusal := deliver [byteOf true l, byteOf false h] s

/-- VARINT_OVERLONG, `1lllllll 1xxxxxxx` (R83, R110). -/
def execVarintOverlong (l x : Group) (s : State) : Host.Outcome State Fault Refusal := deliver [byteOf true l, byteOf true x] s

/-- DURATION_SPLIT7, `xlllllll xhhhhhhh` (R84, R139): stored undecoded, and read by the generator through DUR (R118). -/
def execDurationSplit7 (x0 : Bool) (l : Group) (x1 : Bool) (h : Group) (s : State) : Host.Outcome State Fault Refusal :=
  deliver [byteOf x0 l, byteOf x1 h] s

/-- DURATION_LE16, `llllllll hhhhhhhh` (R84, R139): stored undecoded, and read by the generator through DUR (R118). -/
def execDurationLe16 (l h : Byte) (s : State) : Host.Outcome State Fault Refusal := deliver [l, h] s

end Sys2Proof.Machine
end

