-- ==== Sys2Proof/Machine/Messages.lean ====
section
/-! DEFINITION. The meanings of the message rows: a frame's bytes go to the framer one per cycle, from the first to the last
(41_framer.md R155 to R158, R135). After an accepted IR pattern the transmission goes on in the cycles that follow (R148, R195). -/

namespace Sys2Proof.Machine

/-- KEEPALIVE, `7F 00` (R155). -/
def execKeepalive (s : State) : Host.Outcome State Fault Refusal := deliver [0x7F#8, 0x00#8] s

/-- RESET_REQUEST, `7E 00` (R156). -/
def execResetRequest (s : State) : Host.Outcome State Fault Refusal := deliver [0x7E#8, 0x00#8] s

/-- CTRL_BAD_PAYLOAD, `0111111k p` (R135). -/
def execCtrlBadPayload (k : Bool) (p : Byte) (s : State) : Host.Outcome State Fault Refusal :=
  deliver [if k then 0x7F#8 else 0x7E#8, p] s

/-- IR_PATTERN (R157): kind, three varints, duration bytes. -/
def execIrPattern (n cp ch : Varint) (ds : List (Byte × Byte)) (s : State) : Host.Outcome State Fault Refusal :=
  deliver (0x01#8 :: (varintBytes n ++ varintBytes cp ++ varintBytes ch ++ durationBytes ds)) s

/-- UNRECOGNIZED_KIND (R158): one byte, with no second byte awaited. -/
def execUnrecognizedKind (k : Byte) (s : State) : Host.Outcome State Fault Refusal := deliver [k] s

end Sys2Proof.Machine
end

