-- ==== Sys2Proof/Machine/Dispatch.lean ====
section
/-! DEFINITION. The dispatch: one arm per constructor of Instr, one per row of spec/opcode_table.json. -/

namespace Sys2Proof.Machine

def exec (i : Instr) (s : State) : Host.Outcome State Fault Refusal :=
  match i with
  | .keepalive => Sys2Proof.Machine.execKeepalive s
  | .resetRequest => Sys2Proof.Machine.execResetRequest s
  | .ctrlBadPayload k p => Sys2Proof.Machine.execCtrlBadPayload k p s
  | .irPattern n cp ch ds => Sys2Proof.Machine.execIrPattern n cp ch ds s
  | .unrecognizedKind k => Sys2Proof.Machine.execUnrecognizedKind k s
  | .varint1 v => Sys2Proof.Machine.execVarint1 v s
  | .varint2 l h => Sys2Proof.Machine.execVarint2 l h s
  | .varintOverlong l x => Sys2Proof.Machine.execVarintOverlong l x s
  | .durationSplit7 x0 l x1 h => Sys2Proof.Machine.execDurationSplit7 x0 l x1 h s
  | .durationLe16 l h => Sys2Proof.Machine.execDurationLe16 l h s
  | .evRst acc gtick wedged => Sys2Proof.Machine.execEvRst acc gtick wedged s
  | .evByte b gtick wedged => Sys2Proof.Machine.execEvByte b gtick wedged s
  | .evGtick wedged => Sys2Proof.Machine.execEvGtick wedged s
  | .evWedged acc gtick => Sys2Proof.Machine.execEvWedged acc gtick s

end Sys2Proof.Machine
end

