-- ==== Sys2Proof/Machine/Fetch.lean ====
section
/-! DEFINITION. How the next operation comes from the environment's coming inputs: where the stream stands, what the first trace line
decodes to, and placing a table word. -/

namespace Sys2Proof.Machine

/-- What the next accepted byte begins, from the framer's registers (R28, R132 to R139): a frame in AWAIT, a VARINT in a header
field with no partial value, a DUR in PAIRS while a whole one is still to come (DEDUCED, log entry 13, safe). -/
def place (P : Params) (F : Framer) : Place :=
  match F.fstate with
  | .await => .message
  | .recv =>
    match F.field with
    | .pcount => if F.vhave then .byte else .varint
    | .cper => if F.vhave then .byte else .varint
    | .chigh => if F.vhave then .byte else .varint
    | .pairs => if F.need % 2 = 0 then .duration P.durationEncoding else .byte
    | .plen => .byte
    | .reserved5 => .byte
    | .reserved6 => .byte
    | .reserved7 => .byte
  | .quar => .byte
  | .xmit => .byte

/-- The next operation and what is left of the coming inputs. `none` where no operation begins: nothing comes, the record is `0000`,
or a byte is offered while `rx_ready = 0`. -/
def fetch (s : State) : Option (Instr × List Item) :=
  match s.script with
  | [] => none
  | .cycle I :: rest => (decodeInput (rxReady s.frm) I).map fun i => (i, rest)
  | .bytes b bs :: rest =>
    if rxReady s.frm then
      let d := decodeStream (place s.par s.frm) b bs
      some (d.1, pushBytes d.2 rest)
    else none

/-- The input record of a cycle in which no operation begins. -/
def quietInput (s : State) : Input :=
  match s.script with
  | [] => Input.idle
  | .cycle I :: _ => I
  | .bytes b _ :: _ => { rst := false, rx := some b, gtick := false, wedged := false }

/-- What is left of the coming inputs after such a cycle: a record is used up, a byte not accepted is kept. -/
def quietRest (s : State) : List Item :=
  match s.script with
  | [] => []
  | .cycle _ :: rest => rest
  | .bytes b bs :: rest => .bytes b bs :: rest

/-- The framer standing where the bytes of a form are read: waiting for a frame, at `pulse_count` after the kind byte `01`, or at the
first duration of a one-pulse frame whose header took four bytes. -/
def framerAt (p : Place) (F : Framer) : Framer :=
  match p with
  | .message => { F with fstate := .await }
  | .varint => { F with fstate := .recv, field := .pcount, vhave := false, kind := Config.kindIr, wr := 1, g := 0 }
  | .duration _ =>
    { F with fstate := .recv, field := .pairs, vhave := false, kind := Config.kindIr, pc := 1, need := 4, pbase := 4, wr := 4, g := 0 }
  | .byte => F

/-- A table word put where the next step takes its operation from (log entry 9): the framer stands at the word's place, the generator
is stopped, the word is first of the coming inputs, and for a duration the instance reads SPLIT7. -/
def placeWord (s : State) (nbits w : Nat) : State :=
  match tableItem nbits w with
  | none => s
  | some (.cycle I) =>
    { s with frm := framerAt .message s.frm, gen := { s.gen with gstate := .idle }, script := .cycle I :: s.script }
  | some (.bytes b bs) =>
    { s with
      frm := framerAt (tablePlace nbits w) s.frm
      gen := { s.gen with gstate := .idle }
      par := match tablePlace nbits w with
        | .duration e => { s.par with durationEncoding := e }
        | _ => s.par
      script := .bytes b bs :: s.script }

end Sys2Proof.Machine
end

