-- ==== Sys2Proof/Machine/Step.lean ====
section
/-! DEFINITION. One step: the next operation of the coming inputs, or one cycle in which none begins. -/

namespace Sys2Proof.Machine

/-- One step. A raw input record is exactly one clock cycle (R7); a byte form takes one cycle per byte; with nothing coming, one
cycle with every input 0 (R94). -/
def step (s : State) : Host.Outcome State Fault Refusal :=
  match fetch s with
  | some (i, rest) => exec i (s.withScript rest)
  | none => cycle (quietInput s) (s.withScript (quietRest s))

/-- The state with the table word `w` first of what `step` takes. -/
def State.withFetchWord (s : State) (nbits w : Nat) : State := placeWord s nbits w

end Sys2Proof.Machine
end

