-- ==== Sys2Proof/Safety.lean ====
section
/-! DEFINITION. The invariants of reachable states (10_state.md R51, with what its induction needs), register ranges (R11), and the
words the statements use: what a run keeps, what it pulses, and the segment arithmetic of 42_waveform_generator.md R194. -/

namespace Sys2Proof.Machine

/-- R51, invariant 1. -/
abbrev invRecv (P : Params) (F : Framer) : Prop :=
  F.fstate = .recv → reservedField F.field = false ∧ 1 ≤ F.wr ∧ F.wr ≤ P.fbCapacity

/-- R51, invariant 2. -/
abbrev invPlen (F : Framer) : Prop :=
  F.fstate = .recv → F.field = .plen → (F.kind = Config.kindReset ∨ F.kind = Config.kindKeepalive) ∧ F.wr = 1

/-- R51, invariant 3. -/
abbrev invHeader (P : Params) (F : Framer) : Prop :=
  F.fstate = .recv → F.field = .cper ∨ F.field = .chigh ∨ F.field = .pairs →
    F.kind = Config.kindIr ∧ 1 ≤ F.pc ∧ F.pc ≤ P.maxPulses

/-- R51, invariant 4. -/
abbrev invPairs (F : Framer) : Prop :=
  F.fstate = .recv → F.field = .pairs → F.chigh ≤ F.cper ∧ 1 ≤ F.need ∧ F.need ≤ 4 * F.pc ∧ F.wr + F.need = F.pbase + 4 * F.pc

/-- R51, invariant 5. -/
abbrev invPartial (F : Framer) : Prop :=
  F.vhave = true → F.fstate = .recv ∧ (F.field = .pcount ∨ F.field = .cper ∨ F.field = .chigh)

/-- R51, invariant 6. -/
abbrev invGuard (P : Params) (F : Framer) : Prop := F.fstate = .recv → F.g < P.tInterbyte

/-- R51, invariant 7. -/
abbrev invQuar (P : Params) (F : Framer) : Prop := F.fstate = .quar → F.q < P.tClear

/-- R51, invariant 9. -/
abbrev invIdle (F : Framer) (G : Generator) : Prop := F.fstate ≠ .xmit → G.gstate = .idle

/-- The nine invariants of R51; the eighth is `generatorLegal`. -/
abbrev listedInv (s : State) : Prop :=
  invRecv s.par s.frm ∧ invPlen s.frm ∧ invHeader s.par s.frm ∧ invPairs s.frm ∧ invPartial s.frm ∧ invGuard s.par s.frm ∧
    invQuar s.par s.frm ∧ generatorLegal s.par s.frm s.gen ∧ invIdle s.frm s.gen

/-- The bytes a partial varint has already taken. -/
def partialBytes (F : Framer) : Nat := if F.vhave then 1 else 0

/-- Where the header fields lie (R85): the cursor is one past the fields read so far, each of one or two bytes, so the first
duration byte is at 4 to 7. `pulse_count` is awaited only after the kind byte `01` (R132). -/
abbrev invOffsets (F : Framer) : Prop :=
  F.fstate = .recv →
    (F.field = .pcount → F.kind = Config.kindIr ∧ F.wr = 1 + partialBytes F) ∧
    (F.field = .cper → 2 + partialBytes F ≤ F.wr ∧ F.wr ≤ 3 + partialBytes F) ∧
    (F.field = .chigh → 3 + partialBytes F ≤ F.wr ∧ F.wr ≤ 5 + partialBytes F) ∧
    (F.field = .pairs → 4 ≤ F.pbase ∧ F.pbase ≤ 7)

/-- While the generator runs, the whole frame is stored (R63, R70, R187). -/
abbrev invStored (F : Framer) (G : Generator) : Prop := G.gstate = .run → F.pbase + 4 * G.gpc ≤ F.wr

/-- The largest value each register ever holds (R11, R39, R60), whatever the phase. -/
abbrev invRanges (s : State) : Prop :=
  s.frm.pc ≤ s.par.maxPulses ∧ s.frm.pbase ≤ s.par.fbCapacity ∧ s.frm.need ≤ 4 * s.par.maxPulses ∧
    s.frm.wr ≤ s.par.fbCapacity ∧ s.frm.g ≤ s.par.tInterbyte ∧ s.frm.q ≤ s.par.tClear ∧
    s.gen.seg ≤ 2 * s.par.maxPulses ∧ s.gen.rem < 2 ^ s.par.wDur ∧ s.gen.gpc ≤ s.par.maxPulses ∧ s.gen.rd ≤ s.par.fbCapacity

/-- The FrameBuffer in its canonical form, with no address that does not exist (R60). -/
abbrev invMemory (s : State) : Prop := s.fb.wf = true ∧ s.fb.within s.par.fbCapacity = true

/-- The invariant that every cycle keeps: R51 on a legal instance (R10), with the three parts its induction needs. -/
abbrev Inv (s : State) : Prop :=
  s.par.WF ∧ listedInv s ∧ invOffsets s.frm ∧ invStored s.frm s.gen ∧ invRanges s ∧ invMemory s

/-- The pulses of the cycles between two states, newest first. -/
abbrev pulsesSince (s t : State) (ps : List Pulses) : Prop :=
  t.trace.map Output.pulses = ps ++ s.trace.map Output.pulses

/-- Every byte of FB reads as before, but for the listed addresses. -/
abbrev bytesKept (s t : State) (stored : List Nat) : Prop :=
  ∀ a, a ∉ stored → fbByte t.fb a = fbByte s.fb a

/-- What no operation of the stream changes: the parameters, the generator, and the inputs still to come. -/
abbrev restKept (s t : State) : Prop := t.par = s.par ∧ t.gen = s.gen ∧ t.script = s.script

/-- The registers after REJECT(c) (R144), `F` being what the cycle had assigned before. -/
def rejected (c : Cause) (F : Framer) : Framer :=
  { F with fstate := .quar, q := 0, g := 0, vhave := false, rejCause := c }

/-- The registers after the part of RECV_BYTE common to every field (R134). -/
def counted (F : Framer) : Framer := { F with g := 0, wr := F.wr + 1 }

/-- The pulses of a cycle that rejects (R144). -/
def rejectPulses (c : Cause) : Pulses := { reject := true, rejectCause := c }

/-- The pulses of a cycle that accepts a frame (R140, R141). -/
def acceptPulses (kind : Byte) : Pulses := { frameAccepted := true, frameKind := kind }

/-- FB holds the bytes one after the other from an address on. -/
def holdsFrom (m : Memory) (a : Nat) : List Byte → Prop
  | [] => True
  | b :: bs => fbByte m a = b ∧ holdsFrom m (a + 1) bs

/-- The duration of segment `k` of a frame held at `pbase` (R70, R194). -/
def segDuration (P : Params) (m : Memory) (pbase k : Nat) : Nat :=
  dur P.durationEncoding (fbByte m (pbase + 2 * k)) (fbByte m (pbase + 2 * k + 1))

/-- The carrier periods segment `k` lasts, `max(d, 1)` (R194). -/
def segLength (P : Params) (m : Memory) (pbase k : Nat) : Nat := max (segDuration P m pbase k) 1

/-- `B_k`: the carrier periods before segment `k` (R194). At `k = 2 * pulse_count` it is `L` (R195). -/
def segStart (P : Params) (m : Memory) (pbase : Nat) : Nat → Nat
  | 0 => 0
  | k + 1 => segStart P m pbase k + segLength P m pbase k

/-- The generator as START leaves it (R181), with the framer waiting in XMIT. -/
abbrev justStarted (s : State) : Prop :=
  s.gen.gstate = .run ∧ s.gen.seg = 0 ∧ s.gen.c = 0#14 ∧ s.gen.rem = segDuration s.par s.fb s.frm.pbase 0

/-- No record of the list asserts reset. -/
abbrev noReset (Is : List Input) : Prop := ∀ I ∈ Is, I.rst = false

/-- A gtick and nothing else (R94). -/
def gtickOnly : Input := { rst := false, rx := none, gtick := true, wedged := false }

end Sys2Proof.Machine
end

