-- ==== Sys2Proof/Certificates/Slice0/Obligations.lean ====
section
/-! DEFINITION. The statements for the provers. Each docstring names the rules of spec/ it follows. Where a statement fixes the next
state of FB it says so through `fbByte`, the model's read of one byte. -/

open Sys2Proof Sys2Proof.Machine

/-! Encoding. -/

/-- Decoding the encoding of a well-formed operation, where its bytes are read as that operation, gives it back with nothing left:
R80 to R84 for byte forms, the table's four event bits for events. -/
def Obligations.WellFormedOperationsRoundTrip : Prop :=
  ∀ (P : Params) (i : Instr), i.wf P = true → decodeItem (placeOf i) true (encode i) = some (i, [])

/-- The decoder drops no bit: what it reads, encoded again, and what it leaves are the bytes it was given (R82 to R84, R88). -/
def Obligations.DecodingDropsNoBit : Prop :=
  ∀ (p : Place) (bs : List Byte) (i : Instr) (left : List Byte),
    decodeBytes p bs = .ok (i, left) → encodeBytes i ++ left = bs

/-- A few words written out from the encodings of R81, R83 and R84 decode to what they stand for. -/
def Obligations.WrittenOutWordsDecode : Prop :=
  decodeMessage [0b01111111#8, 0b00000000#8] = .ok (.keepalive, []) ∧
  decodeMessage [0b01111110#8, 0b00000000#8] = .ok (.resetRequest, []) ∧
  decodeMessage [0b01111110#8, 0b10000000#8] = .ok (.ctrlBadPayload false 0x80#8, []) ∧
  decodeVarintForm [0b10101100#8, 0b00000010#8] = .ok (.varint2 0b0101100#7 0b0000010#7, []) ∧
  decodeDurationForm .split7 [0b10000101#8, 0b00000010#8] = .ok (.durationSplit7 true 0b0000101#7 false 0b0000010#7, []) ∧
  decodeDurationForm .le16 [0b00101100#8, 0b00000001#8] = .ok (.durationLe16 0b00101100#8 0b00000001#8, [])

/-- The reference encoder's bytes (R116): one up to 127; above, `0x80 | (n & 0x7F)` and `n >> 7`; refused from 16384. -/
def Obligations.VarintEncoderBytes : Prop :=
  ∀ n : Nat,
    (n ≤ 127 → ∃ b, venc n = some [b] ∧ b.toNat = n) ∧
    (128 ≤ n → n ≤ 16383 → ∃ b0 b1, venc n = some [b0, b1] ∧ b0.toNat = 128 + n % 128 ∧ b1.toNat = n / 128) ∧
    (16384 ≤ n → venc n = none)

/-- Decoding what the reference encoder gives returns the value and the length, one byte exactly up to 127 (the law of R117, which
the spec derives from R110 and R116). -/
def Obligations.VarintRoundTrip : Prop :=
  ∀ n : Nat, n ≤ 16383 →
    ∃ bs, venc n = some bs ∧ vdecode bs = .ok (BitVec.ofNat 14 n) bs.length ∧ (bs.length = 1 ↔ n ≤ 127)

/-- A duration encoded and read back under either encoding is itself; outside the domain the encoder refuses (the law of R120, which
the spec derives from R118). -/
def Obligations.DurationRoundTrip : Prop :=
  ∀ d : Nat,
    (d ≤ 16383 → ∃ b0 b1, durenc .split7 d = some (b0, b1) ∧ dur .split7 b0 b1 = d) ∧
    (16383 < d → durenc .split7 d = none) ∧
    (d ≤ 65535 → ∃ b0 b1, durenc .le16 d = some (b0, b1) ∧ dur .le16 b0 b1 = d) ∧
    (65535 < d → durenc .le16 d = none)

/-- VSTEP (R110), with the decoded values as numbers: `b < 128` is bit 7 clear. -/
def Obligations.VarintStepValues : Prop :=
  ∀ (vlow : Group) (b : Byte),
    (b.toNat < 128 → ∃ v, vstep false vlow b = .done v ∧ v.toNat = b.toNat) ∧
    (128 ≤ b.toNat → ∃ lo, vstep false vlow b = .more lo ∧ lo.toNat = b.toNat - 128) ∧
    (b.toNat < 128 → ∃ v, vstep true vlow b = .done v ∧ v.toNat = vlow.toNat + 128 * b.toNat) ∧
    (128 ≤ b.toNat → vstep true vlow b = .overlong)

/-- Every whole-sequence result takes one or two bytes, and a one-byte result is at most 127 (R112, which the spec derives from
R110); the bytes behind those consumed do not matter (R111). -/
def Obligations.SequenceDecodeBounds : Prop :=
  ∀ (s : List Byte) (v : V14) (n : Nat), vdecode s = .ok v n →
    v.toNat ≤ 16383 ∧ (n = 1 ∨ n = 2) ∧ n ≤ s.length ∧ (n = 1 → v.toNat ≤ 127) ∧
      ∀ rest, vdecode (s.take n ++ rest) = .ok v n

/-- DUR (R118), as numbers: 7 bits of each byte, or 8. -/
def Obligations.DurationValues : Prop :=
  ∀ b0 b1 : Byte,
    dur .split7 b0 b1 = b0.toNat % 128 + 128 * (b1.toNat % 128) ∧ dur .le16 b0 b1 = b0.toNat + 256 * b1.toNat

/-- Under SPLIT7 a duration written as a two-byte varint is read as that varint's value (R119, which the spec derives from R110 and
R118). -/
def Obligations.SplitDurationReadsTwoByteVarints : Prop :=
  ∀ l h : Group, ∃ v, vdecode [byteOf true l, byteOf false h] = .ok v 2 ∧ dur .split7 (byteOf true l) (byteOf false h) = v.toNat

/-! The step. -/

/-- A step runs the operation that the first of the coming inputs decodes to, on the state with those inputs used up: whatever
decodes (a record of the environment, or bytes while the block is ready), and so the encoding of any well-formed operation where its
bytes are read as that operation (R94; that the inputs stand in the state is the model's, log entry 1). -/
def Obligations.StepRunsTheDecodedOperation : Prop :=
  ∀ (s : State) (rest : List Item),
    (∀ (item : Item) (i : Instr) (left : List Byte), s.script = item :: rest →
      (∀ b bs, item = .bytes b bs → rxReady s.frm = true) →
      decodeItem (place s.par s.frm) (rxReady s.frm) item = some (i, left) →
      step s = exec i (s.withScript (pushBytes left rest))) ∧
    (∀ i : Instr, i.wf s.par = true → s.script = encode i :: rest → rxReady s.frm = true →
      (∀ b bs, encode i = .bytes b bs → place s.par s.frm = placeOf i) → step s = exec i (s.withScript rest))

/-- A step on a raw input record is exactly one clock cycle with that record, whatever the record: the block goes on as the spec's
`step(S, I) -> (S', O)` gives from its own state alone (R7, R8, R52), or stops where that faults. That the record is used up and the
outputs are kept is the model's (log entries 1 and 2). -/
def Obligations.StepOnARecordIsOneCycle : Prop :=
  ∀ (s : State) (I : Input) (rest : List Item), s.script = .cycle I :: rest →
    step s = cycle I (s.withScript rest) ∧
    (∀ S O, blockStep s.par s.toBlock I = .ok (S, O) →
      step s = .next { toBlock := S, par := s.par, script := rest, trace := O :: s.trace }) ∧
    (∀ e, blockStep s.par s.toBlock I = .error e → step s = .fault e)

/-! EV_BYTE, by the framer's state and field. -/

/-- FIRST_BYTE (R132). -/
def Obligations.FirstByteOfAFrame : Prop :=
  ∀ (s : State) (b : Byte) (gtick wedged : Bool),
    s.frm.fstate = .await → s.gen.gstate = .idle → 1 ≤ s.par.fbCapacity →
    ∃ t, exec (.evByte b gtick wedged) s = .next t ∧ restKept s t ∧ fbByte t.fb 0 = b ∧ bytesKept s t [0] ∧
      let F := { s.frm with wr := 1, g := 0, vhave := false, kind := b }
      if b = 0x01#8 then t.frm = { F with fstate := .recv, field := .pcount } ∧ pulsesSince s t [{}]
      else if b = 0x7E#8 ∨ b = 0x7F#8 then t.frm = { F with fstate := .recv, field := .plen } ∧ pulsesSince s t [{}]
      else t.frm = rejected .badKind F ∧ pulsesSince s t [rejectPulses .badKind]

/-- PLEN_BYTE (R135), with what ACCEPT_CTRL does (R140). -/
def Obligations.PayloadLengthByte : Prop :=
  ∀ (s : State) (b : Byte) (gtick wedged : Bool),
    s.frm.fstate = .recv → s.frm.field = .plen → s.gen.gstate = .idle → s.frm.wr < s.par.fbCapacity →
    ∃ t, exec (.evByte b gtick wedged) s = .next t ∧ restKept s t ∧ fbByte t.fb s.frm.wr = b ∧ bytesKept s t [s.frm.wr] ∧
      if b = 0x00#8 then t.frm = { counted s.frm with fstate := .await } ∧ pulsesSince s t [acceptPulses s.frm.kind]
      else t.frm = rejected .badPayloadLen (counted s.frm) ∧ pulsesSince s t [rejectPulses .badPayloadLen]

/-- A byte in RECV with `wr = FB_CAPACITY` is not stored and rejects with FB_OVERFLOW, whatever the field and the byte (R134, R221). -/
def Obligations.OverflowRejects : Prop :=
  ∀ (s : State) (b : Byte) (gtick wedged : Bool),
    s.frm.fstate = .recv → reservedField s.frm.field = false → s.gen.gstate = .idle → s.frm.wr = s.par.fbCapacity →
    ∃ t, exec (.evByte b gtick wedged) s = .next t ∧ restKept s t ∧ t.fb = s.fb ∧
      t.frm = rejected .fbOverflow s.frm ∧ pulsesSince s t [rejectPulses .fbOverflow]

/-- PCOUNT_BYTE (R136). -/
def Obligations.PulseCountByte : Prop :=
  ∀ (s : State) (b : Byte) (gtick wedged : Bool),
    s.frm.fstate = .recv → s.frm.field = .pcount → s.gen.gstate = .idle → s.frm.wr < s.par.fbCapacity →
    ∃ t, exec (.evByte b gtick wedged) s = .next t ∧ restKept s t ∧ fbByte t.fb s.frm.wr = b ∧ bytesKept s t [s.frm.wr] ∧
      match vstep s.frm.vhave s.frm.vlow b with
      | .more lo => t.frm = { counted s.frm with vhave := true, vlow := lo } ∧ pulsesSince s t [{}]
      | .overlong => t.frm = rejected .varintOverlong (counted s.frm) ∧ pulsesSince s t [rejectPulses .varintOverlong]
      | .done v =>
        if 1 ≤ v.toNat ∧ v.toNat ≤ s.par.maxPulses then
          t.frm = { counted s.frm with vhave := false, pc := v.toNat, field := .cper } ∧ pulsesSince s t [{}]
        else t.frm = rejected .badPulseCount (counted s.frm) ∧ pulsesSince s t [rejectPulses .badPulseCount]

/-- CPER_BYTE (R137). -/
def Obligations.CarrierPeriodByte : Prop :=
  ∀ (s : State) (b : Byte) (gtick wedged : Bool),
    s.frm.fstate = .recv → s.frm.field = .cper → s.gen.gstate = .idle → s.frm.wr < s.par.fbCapacity →
    ∃ t, exec (.evByte b gtick wedged) s = .next t ∧ restKept s t ∧ fbByte t.fb s.frm.wr = b ∧ bytesKept s t [s.frm.wr] ∧
      match vstep s.frm.vhave s.frm.vlow b with
      | .more lo => t.frm = { counted s.frm with vhave := true, vlow := lo } ∧ pulsesSince s t [{}]
      | .overlong => t.frm = rejected .varintOverlong (counted s.frm) ∧ pulsesSince s t [rejectPulses .varintOverlong]
      | .done v => t.frm = { counted s.frm with vhave := false, cper := v, field := .chigh } ∧ pulsesSince s t [{}]

/-- CHIGH_BYTE (R138): `pbase` is the address of the byte after this one. -/
def Obligations.CarrierHighByte : Prop :=
  ∀ (s : State) (b : Byte) (gtick wedged : Bool),
    s.frm.fstate = .recv → s.frm.field = .chigh → s.gen.gstate = .idle → s.frm.wr < s.par.fbCapacity →
    ∃ t, exec (.evByte b gtick wedged) s = .next t ∧ restKept s t ∧ fbByte t.fb s.frm.wr = b ∧ bytesKept s t [s.frm.wr] ∧
      match vstep s.frm.vhave s.frm.vlow b with
      | .more lo => t.frm = { counted s.frm with vhave := true, vlow := lo } ∧ pulsesSince s t [{}]
      | .overlong => t.frm = rejected .varintOverlong (counted s.frm) ∧ pulsesSince s t [rejectPulses .varintOverlong]
      | .done v =>
        if v.toNat ≤ s.frm.cper.toNat then
          t.frm = { counted s.frm with vhave := false, chigh := v, field := .pairs, pbase := s.frm.wr + 1, need := 4 * s.frm.pc } ∧
            pulsesSince s t [{}]
        else t.frm = rejected .badCarrier (counted s.frm) ∧ pulsesSince s t [rejectPulses .badCarrier]

/-- PAIRS_BYTE before the last byte of the frame (R139): stored and counted, whatever its value. -/
def Obligations.DurationByteStored : Prop :=
  ∀ (s : State) (b : Byte) (gtick wedged : Bool),
    s.frm.fstate = .recv → s.frm.field = .pairs → s.gen.gstate = .idle → s.frm.wr < s.par.fbCapacity → 2 ≤ s.frm.need →
    ∃ t, exec (.evByte b gtick wedged) s = .next t ∧ restKept s t ∧ fbByte t.fb s.frm.wr = b ∧ bytesKept s t [s.frm.wr] ∧
      t.frm = { counted s.frm with need := s.frm.need - 1 } ∧ pulsesSince s t [{}]

/-- The last byte of an IR frame: ACCEPT_IR (R141) and START (R181) in its cycle, the first duration read with that byte stored. -/
def Obligations.LastDurationByteStartsTheGenerator : Prop :=
  ∀ (s : State) (b : Byte) (gtick wedged : Bool),
    s.frm.fstate = .recv → s.frm.field = .pairs → s.gen.gstate = .idle → s.frm.wr < s.par.fbCapacity → s.frm.need = 1 →
    1 ≤ s.frm.pc → s.frm.pc ≤ s.par.maxPulses → s.frm.pbase + 1 < s.par.fbCapacity →
    ∃ t, exec (.evByte b gtick wedged) s = .next t ∧ t.par = s.par ∧ t.script = s.script ∧
      fbByte t.fb s.frm.wr = b ∧ bytesKept s t [s.frm.wr] ∧
      t.frm = { counted s.frm with need := 0, fstate := .xmit } ∧
      t.gen = { gstate := .run, seg := 0, c := 0#14, gP := s.frm.cper, gH := s.frm.chigh, gpc := s.frm.pc, rd := s.frm.pbase + 2,
                rem := dur s.par.durationEncoding (fbByte t.fb s.frm.pbase) (fbByte t.fb (s.frm.pbase + 1)) } ∧
      pulsesSince s t [acceptPulses 0x01#8]

/-- Q_BYTE (R145): the byte is discarded and the silence counted anew. -/
def Obligations.QuarantineDiscardsBytes : Prop :=
  ∀ (s : State) (b : Byte) (gtick wedged : Bool),
    s.frm.fstate = .quar → s.gen.gstate = .idle →
    ∃ t, exec (.evByte b gtick wedged) s = .next t ∧ restKept s t ∧ t.fb = s.fb ∧
      t.frm = { s.frm with q := 0 } ∧ pulsesSince s t [{ transportReinit := wedged }]

/-- In XMIT no byte is accepted: the cycle is the one in which nothing is offered, and the transport keeps the byte, or all the bytes
of a message or field form (R131, R149, R256; that they are offered again is the model's, log entries 1 and 10). So does a byte offered
there in a reset cycle. -/
def Obligations.BytesWaitDuringTransmission : Prop :=
  ∀ s : State, Inv s → s.frm.fstate = .xmit →
    ∃ u, cycle Input.idle s = .next u ∧ u.fb = s.fb ∧
      (∀ (b : Byte) (gtick wedged : Bool), exec (.evByte b gtick wedged) s = .next (u.hold [b])) ∧
      (∀ (i : Instr) (b : Byte) (bs : List Byte), encode i = .bytes b bs → exec i s = .next (u.hold (b :: bs))) ∧
      ∀ (b : Byte) (gtick wedged : Bool), ∃ t, exec (.evRst none gtick wedged) s = .next t ∧
        exec (.evRst (some b) gtick wedged) s = .next (t.hold [b])

/-! EV_GTICK, EV_WEDGED, EV_RST. -/

/-- GUARD_TICK (R142). -/
def Obligations.GuardTick : Prop :=
  ∀ (s : State) (wedged : Bool), s.frm.fstate = .recv → reservedField s.frm.field = false → s.gen.gstate = .idle →
    ∃ t, exec (.evGtick wedged) s = .next t ∧ restKept s t ∧ t.fb = s.fb ∧
      if s.frm.g + 1 ≥ s.par.tInterbyte then t.frm = rejected .timeout s.frm ∧ pulsesSince s t [rejectPulses .timeout]
      else t.frm = { s.frm with g := s.frm.g + 1 } ∧ pulsesSince s t [{}]

/-- Q_TICK (R146). -/
def Obligations.QuarantineTick : Prop :=
  ∀ (s : State) (wedged : Bool), s.frm.fstate = .quar → s.gen.gstate = .idle →
    ∃ t, exec (.evGtick wedged) s = .next t ∧ restKept s t ∧ t.fb = s.fb ∧ pulsesSince s t [{ transportReinit := wedged }] ∧
      if s.frm.q + 1 ≥ s.par.tClear then t.frm = { s.frm with fstate := .await, q := 0 }
      else t.frm = { s.frm with q := s.frm.q + 1 }

/-- In XMIT a gtick and a wedged indication are ignored (R149), and in RECV a wedged indication is (R143): the cycle goes on as
with no input, and answers. -/
def Obligations.IgnoredTicksAndWedges : Prop :=
  ∀ (s : State) (wedged : Bool), Inv s →
    (s.frm.fstate = .xmit → ∃ t, cycle Input.idle s = .next t ∧ exec (.evGtick wedged) s = .next t ∧
      exec (.evWedged none false) s = .next t) ∧
    (s.frm.fstate = .recv → ∃ t, cycle Input.idle s = .next t ∧ exec (.evWedged none false) s = .next t ∧
      t.frm = s.frm ∧ t.gen = s.gen ∧ t.fb = s.fb)

/-- A wedged transport in QUAR pulses `transport_reinit` beside the cycle's other action, and does not change `q` (R147). -/
def Obligations.WedgedInQuarantine : Prop :=
  ∀ (s : State) (acc : Option Byte) (gtick : Bool), s.frm.fstate = .quar → s.gen.gstate = .idle →
    ∃ t, exec (.evWedged acc gtick) s = .next t ∧ restKept s t ∧ t.fb = s.fb ∧ pulsesSince s t [{ transportReinit := true }] ∧
      (acc.isSome = true → t.frm = { s.frm with q := 0 }) ∧
      (acc = none → gtick = false → t.frm = s.frm) ∧
      (acc = none → gtick = true → s.frm.q + 1 < s.par.tClear → t.frm = { s.frm with q := s.frm.q + 1 }) ∧
      (acc = none → gtick = true → s.par.tClear ≤ s.frm.q + 1 → t.frm = { s.frm with fstate := .await, q := 0 })

/-- A cycle with `rst = 1` (R250): every register at its reset value, FB kept, every pulse 0, the Moore outputs those of the state
before; afterwards the Moore outputs of RESET_STATE. A byte of the hand-shake is discarded: it is not among the bytes still to come. -/
def Obligations.ResetCycle : Prop :=
  ∀ (s : State) (acc : Option Byte) (gtick wedged : Bool),
    ∃ t, exec (.evRst acc gtick wedged) s = .next t ∧ t.par = s.par ∧ t.fb = s.fb ∧
      t.frm = { fstate := .await, field := .plen, vhave := false, vlow := 0#7, kind := 0x00#8, pc := 0, cper := 0#14, chigh := 0#14,
                pbase := 0, need := 0, wr := 0, g := 0, q := 0, rejCause := .none } ∧
      t.gen = { gstate := .idle, seg := 0, rem := 0, c := 0#14, gP := 0#14, gH := 0#14, gpc := 0, rd := 0 } ∧
      t.trace = { moore := moore s.frm s.gen, pulses := {} } :: s.trace ∧
      moore t.frm t.gen = { rxReady := true, bgYield := true, irOut := false, modConnect := false, pwmEnable := false,
                            tickIrqEn := false, hasEnded := true, status := 0x0000#16 } ∧
      (rxReady s.frm = true → t.script = s.script)

/-! The message rows. -/

/-- KEEPALIVE and RESET_REQUEST (R155, R156): accepted in the cycle of the second byte; with `FB_CAPACITY = 1` that byte overflows. -/
def Obligations.ControlFramesAccepted : Prop :=
  ∀ (s : State) (i : Instr) (k : Byte), (i = .keepalive ∧ k = 0x7F#8) ∨ (i = .resetRequest ∧ k = 0x7E#8) →
    s.frm.fstate = .await → s.gen.gstate = .idle →
    (2 ≤ s.par.fbCapacity →
      ∃ t, exec i s = .next t ∧ restKept s t ∧ fbByte t.fb 0 = k ∧ fbByte t.fb 1 = 0x00#8 ∧ bytesKept s t [0, 1] ∧
        t.frm = { s.frm with fstate := .await, field := .plen, vhave := false, kind := k, wr := 2, g := 0 } ∧
        pulsesSince s t [acceptPulses k, {}]) ∧
    (s.par.fbCapacity = 1 →
      ∃ t, exec i s = .next t ∧ restKept s t ∧ fbByte t.fb 0 = k ∧ bytesKept s t [0] ∧
        t.frm = rejected .fbOverflow { s.frm with field := .plen, kind := k, wr := 1 } ∧
        pulsesSince s t [rejectPulses .fbOverflow, {}])

/-- CTRL_BAD_PAYLOAD (R135): a control frame whose byte 1 is not `0x00` is rejected at that byte with BAD_PAYLOAD_LEN. -/
def Obligations.BadPayloadRejected : Prop :=
  ∀ (s : State) (k : Bool) (p : Byte), p ≠ 0x00#8 → s.frm.fstate = .await → s.gen.gstate = .idle → 2 ≤ s.par.fbCapacity →
    ∃ t, exec (.ctrlBadPayload k p) s = .next t ∧ restKept s t ∧
      fbByte t.fb 0 = (if k then 0x7F#8 else 0x7E#8) ∧ fbByte t.fb 1 = p ∧ bytesKept s t [0, 1] ∧
      t.frm = rejected .badPayloadLen { s.frm with field := .plen, kind := if k then 0x7F#8 else 0x7E#8, wr := 2 } ∧
      pulsesSince s t [rejectPulses .badPayloadLen, {}]

/-- UNRECOGNIZED_KIND (R158): rejected with BAD_KIND in its own cycle. -/
def Obligations.UnrecognizedKindRejected : Prop :=
  ∀ (s : State) (k : Byte), k ≠ 0x01#8 → k ≠ 0x7E#8 → k ≠ 0x7F#8 →
    s.frm.fstate = .await → s.gen.gstate = .idle → 1 ≤ s.par.fbCapacity →
    ∃ t, exec (.unrecognizedKind k) s = .next t ∧ restKept s t ∧ fbByte t.fb 0 = k ∧ bytesKept s t [0] ∧
      t.frm = rejected .badKind { s.frm with wr := 1, kind := k } ∧ pulsesSince s t [rejectPulses .badKind]

/-- IR_PATTERN (R157): a well-formed pattern that fits is stored whole, decoded, accepted at its last byte and started; the lengths of
the header fields move `pbase` (R85). -/
def Obligations.IrPatternAccepted : Prop :=
  ∀ (s : State) (n cp ch : Varint) (ds : List (Byte × Byte)),
    (Instr.irPattern n cp ch ds).wf s.par = true → s.frm.fstate = .await → s.gen.gstate = .idle →
    (encodeBytes (.irPattern n cp ch ds)).length ≤ s.par.fbCapacity →
    ∃ t, exec (.irPattern n cp ch ds) s = .next t ∧ t.par = s.par ∧ t.script = s.script ∧
      holdsFrom t.fb 0 (encodeBytes (.irPattern n cp ch ds)) ∧
      (∀ a, (encodeBytes (.irPattern n cp ch ds)).length ≤ a → fbByte t.fb a = fbByte s.fb a) ∧
      t.frm.fstate = .xmit ∧ t.frm.field = .pairs ∧ t.frm.vhave = false ∧ t.frm.kind = 0x01#8 ∧
      t.frm.pc = (varintValue n).toNat ∧ t.frm.cper = varintValue cp ∧ t.frm.chigh = varintValue ch ∧
      t.frm.pbase = 1 + (varintBytes n).length + (varintBytes cp).length + (varintBytes ch).length ∧ t.frm.need = 0 ∧
      t.frm.wr = t.frm.pbase + 4 * (varintValue n).toNat ∧ t.frm.g = 0 ∧ t.frm.q = s.frm.q ∧ t.frm.rejCause = s.frm.rejCause ∧
      t.gen = { gstate := .run, seg := 0, c := 0#14, gP := varintValue cp, gH := varintValue ch, gpc := (varintValue n).toNat,
                rd := t.frm.pbase + 2, rem := segDuration s.par t.fb t.frm.pbase 0 } ∧
      pulsesSince s t (acceptPulses 0x01#8 :: List.replicate ((encodeBytes (.irPattern n cp ch ds)).length - 1) ({} : Pulses))

/-- An IR pattern with an illegal header value is rejected at the last byte of that value, and the bytes behind it are discarded
(R89, R136, R138, R145). -/
def Obligations.IrPatternIllegalHeaderRejected : Prop :=
  ∀ (s : State) (n cp ch : Varint) (ds : List (Byte × Byte)),
    let i := Instr.irPattern n cp ch ds
    let len := (encodeBytes i).length
    let head := 1 + (varintBytes n).length + (varintBytes cp).length + (varintBytes ch).length
    s.frm.fstate = .await → s.gen.gstate = .idle →
    (¬ (1 ≤ (varintValue n).toNat ∧ (varintValue n).toNat ≤ s.par.maxPulses) → 1 + (varintBytes n).length ≤ s.par.fbCapacity →
      ∃ t, exec i s = .next t ∧ restKept s t ∧ t.frm.fstate = .quar ∧ t.frm.rejCause = .badPulseCount ∧ t.frm.q = 0 ∧
        (∀ a, 1 + (varintBytes n).length ≤ a → fbByte t.fb a = fbByte s.fb a) ∧
        pulsesSince s t (List.replicate (len - (1 + (varintBytes n).length)) ({} : Pulses) ++
          rejectPulses .badPulseCount :: List.replicate (varintBytes n).length ({} : Pulses))) ∧
    (1 ≤ (varintValue n).toNat → (varintValue n).toNat ≤ s.par.maxPulses → varintValue cp < varintValue ch → head ≤ s.par.fbCapacity →
      ∃ t, exec i s = .next t ∧ restKept s t ∧ t.frm.fstate = .quar ∧ t.frm.rejCause = .badCarrier ∧ t.frm.q = 0 ∧
        (∀ a, head ≤ a → fbByte t.fb a = fbByte s.fb a) ∧
        pulsesSince s t (List.replicate (len - head) ({} : Pulses) ++ rejectPulses .badCarrier :: List.replicate (head - 1) ({} : Pulses)))

/-! The field forms. -/

/-- The three varint forms where `carrier_period` is read (R83, R110, R137). -/
def Obligations.VarintFormsInCarrierPeriod : Prop :=
  ∀ (s : State) (l h : Group),
    s.frm.fstate = .recv → s.frm.field = .cper → s.frm.vhave = false → s.gen.gstate = .idle → s.frm.wr + 2 ≤ s.par.fbCapacity →
    (∃ t, exec (.varint1 l) s = .next t ∧ restKept s t ∧ fbByte t.fb s.frm.wr = byteOf false l ∧ bytesKept s t [s.frm.wr] ∧
      t.frm = { s.frm with cper := BitVec.ofNat 14 l.toNat, field := .chigh, wr := s.frm.wr + 1, g := 0 } ∧ pulsesSince s t [{}]) ∧
    (∃ t, exec (.varint2 l h) s = .next t ∧ restKept s t ∧ fbByte t.fb s.frm.wr = byteOf true l ∧
      fbByte t.fb (s.frm.wr + 1) = byteOf false h ∧ bytesKept s t [s.frm.wr, s.frm.wr + 1] ∧
      t.frm = { s.frm with cper := BitVec.ofNat 14 (l.toNat + 128 * h.toNat), field := .chigh, vlow := l, wr := s.frm.wr + 2, g := 0 } ∧
      pulsesSince s t [{}, {}]) ∧
    (∃ t, exec (.varintOverlong l h) s = .next t ∧ restKept s t ∧ fbByte t.fb s.frm.wr = byteOf true l ∧
      fbByte t.fb (s.frm.wr + 1) = byteOf true h ∧ bytesKept s t [s.frm.wr, s.frm.wr + 1] ∧
      t.frm = rejected .varintOverlong { s.frm with vlow := l, wr := s.frm.wr + 2 } ∧
      pulsesSince s t [rejectPulses .varintOverlong, {}])

/-- The varint forms where `carrier_high_period` is read, a value within the period (R110, R138): the durations begin behind it. -/
def Obligations.VarintFormsInCarrierHigh : Prop :=
  ∀ (s : State) (l h : Group),
    s.frm.fstate = .recv → s.frm.field = .chigh → s.frm.vhave = false → s.gen.gstate = .idle → s.frm.wr + 2 ≤ s.par.fbCapacity →
    (l.toNat ≤ s.frm.cper.toNat →
      ∃ t, exec (.varint1 l) s = .next t ∧ restKept s t ∧ fbByte t.fb s.frm.wr = byteOf false l ∧ bytesKept s t [s.frm.wr] ∧
        t.frm = { s.frm with chigh := BitVec.ofNat 14 l.toNat, field := .pairs, pbase := s.frm.wr + 1, need := 4 * s.frm.pc,
                             wr := s.frm.wr + 1, g := 0 } ∧ pulsesSince s t [{}]) ∧
    (l.toNat + 128 * h.toNat ≤ s.frm.cper.toNat →
      ∃ t, exec (.varint2 l h) s = .next t ∧ restKept s t ∧ fbByte t.fb s.frm.wr = byteOf true l ∧
        fbByte t.fb (s.frm.wr + 1) = byteOf false h ∧ bytesKept s t [s.frm.wr, s.frm.wr + 1] ∧
        t.frm = { s.frm with chigh := BitVec.ofNat 14 (l.toNat + 128 * h.toNat), field := .pairs, pbase := s.frm.wr + 2,
                             need := 4 * s.frm.pc, vlow := l, wr := s.frm.wr + 2, g := 0 } ∧ pulsesSince s t [{}, {}])

/-- The duration forms (R84, R118, R139): the pair is stored byte for byte, undecoded, and read through DUR under the form's encoding has
the form's value. The second clause is a pair that ends the frame: the generator runs. -/
def Obligations.DurationFormsStored : Prop :=
  ∀ (s : State) (x0 x1 : Bool) (l h : Group) (b0 b1 : Byte),
    s.frm.fstate = .recv → s.frm.field = .pairs → s.gen.gstate = .idle → s.frm.wr + 2 ≤ s.par.fbCapacity →
    (3 ≤ s.frm.need →
      (∃ t, exec (.durationSplit7 x0 l x1 h) s = .next t ∧ restKept s t ∧ bytesKept s t [s.frm.wr, s.frm.wr + 1] ∧
        fbByte t.fb s.frm.wr = byteOf x0 l ∧ fbByte t.fb (s.frm.wr + 1) = byteOf x1 h ∧
        dur .split7 (fbByte t.fb s.frm.wr) (fbByte t.fb (s.frm.wr + 1)) = l.toNat + 128 * h.toNat ∧
        t.frm = { s.frm with need := s.frm.need - 2, wr := s.frm.wr + 2, g := 0 } ∧ pulsesSince s t [{}, {}]) ∧
      (∃ t, exec (.durationLe16 b0 b1) s = .next t ∧ restKept s t ∧ bytesKept s t [s.frm.wr, s.frm.wr + 1] ∧
        fbByte t.fb s.frm.wr = b0 ∧ fbByte t.fb (s.frm.wr + 1) = b1 ∧
        dur .le16 (fbByte t.fb s.frm.wr) (fbByte t.fb (s.frm.wr + 1)) = b0.toNat + 256 * b1.toNat ∧
        t.frm = { s.frm with need := s.frm.need - 2, wr := s.frm.wr + 2, g := 0 } ∧ pulsesSince s t [{}, {}])) ∧
    (s.frm.need = 2 → 1 ≤ s.frm.pc → s.frm.pc ≤ s.par.maxPulses → s.frm.pbase + 1 < s.par.fbCapacity →
      (∃ t, exec (.durationSplit7 x0 l x1 h) s = .next t ∧ t.par = s.par ∧ t.script = s.script ∧
        bytesKept s t [s.frm.wr, s.frm.wr + 1] ∧
        fbByte t.fb s.frm.wr = byteOf x0 l ∧ fbByte t.fb (s.frm.wr + 1) = byteOf x1 h ∧
        dur .split7 (fbByte t.fb s.frm.wr) (fbByte t.fb (s.frm.wr + 1)) = l.toNat + 128 * h.toNat ∧
        t.frm = { s.frm with fstate := .xmit, need := 0, wr := s.frm.wr + 2, g := 0 } ∧ t.gen.gstate = .run ∧
        pulsesSince s t [acceptPulses 0x01#8, {}]) ∧
      (∃ t, exec (.durationLe16 b0 b1) s = .next t ∧ t.par = s.par ∧ t.script = s.script ∧
        bytesKept s t [s.frm.wr, s.frm.wr + 1] ∧
        fbByte t.fb s.frm.wr = b0 ∧ fbByte t.fb (s.frm.wr + 1) = b1 ∧
        dur .le16 (fbByte t.fb s.frm.wr) (fbByte t.fb (s.frm.wr + 1)) = b0.toNat + 256 * b1.toNat ∧
        t.frm = { s.frm with fstate := .xmit, need := 0, wr := s.frm.wr + 2, g := 0 } ∧ t.gen.gstate = .run ∧
        pulsesSince s t [acceptPulses 0x01#8, {}]))

/-! The generator, in any cycle without reset: no other input reaches it (R180, R197). -/

/-- Inside a carrier period only the phase counter moves (R184). -/
def Obligations.CarrierPhaseAdvances : Prop :=
  ∀ (s : State) (I : Input), I.rst = false → s.gen.gstate = .run → generatorLegal s.par s.frm s.gen →
    s.gen.c.toNat + 1 < max s.gen.gP.toNat 1 →
    ∃ t, cycle I s = .next t ∧ t.gen = { s.gen with c := BitVec.ofNat 14 (s.gen.c.toNat + 1) } ∧ t.frm = s.frm ∧ t.fb = s.fb ∧
      t.par = s.par ∧ t.script = s.script ∧ pulsesSince s t [{}]

/-- The carrier tick with two or more periods left counts one down (R185, R186). -/
def Obligations.CarrierTickCountsDown : Prop :=
  ∀ (s : State) (I : Input), I.rst = false → s.gen.gstate = .run → generatorLegal s.par s.frm s.gen →
    s.gen.c.toNat + 1 = max s.gen.gP.toNat 1 → 2 ≤ s.gen.rem →
    ∃ t, cycle I s = .next t ∧ t.gen = { s.gen with c := 0#14, rem := s.gen.rem - 1 } ∧ t.frm = s.frm ∧ t.fb = s.fb ∧
      t.par = s.par ∧ t.script = s.script ∧ pulsesSince s t [{}]

/-- The tick that ends a segment before the last loads the next one, whether one period or none was left (R186, R187). -/
def Obligations.SegmentAdvances : Prop :=
  ∀ (s : State) (I : Input), I.rst = false → s.gen.gstate = .run → generatorLegal s.par s.frm s.gen →
    s.gen.c.toNat + 1 = max s.gen.gP.toNat 1 → s.gen.rem ≤ 1 → s.gen.seg + 1 ≠ 2 * s.gen.gpc → s.gen.rd + 1 < s.par.fbCapacity →
    ∃ t, cycle I s = .next t ∧
      t.gen = { s.gen with c := 0#14, seg := s.gen.seg + 1, rd := s.gen.rd + 2,
                           rem := dur s.par.durationEncoding (fbByte s.fb s.gen.rd) (fbByte s.fb (s.gen.rd + 1)) } ∧
      t.frm = s.frm ∧ t.fb = s.fb ∧ t.par = s.par ∧ t.script = s.script ∧ pulsesSince s t [{}]

/-- The tick that ends the last segment stops the generator and pulses `gen_done` (R188). -/
def Obligations.GenerationCompletes : Prop :=
  ∀ (s : State) (I : Input), I.rst = false → s.gen.gstate = .run → generatorLegal s.par s.frm s.gen →
    s.gen.c.toNat + 1 = max s.gen.gP.toNat 1 → s.gen.rem ≤ 1 → s.gen.seg + 1 = 2 * s.gen.gpc →
    ∃ t, cycle I s = .next t ∧ t.gen = { s.gen with gstate := .idle, c := 0#14, seg := s.gen.seg + 1, rem := 0 } ∧
      t.gen.rd = s.frm.pbase + 4 * s.gen.gpc ∧
      t.frm = s.frm ∧ t.fb = s.fb ∧ t.par = s.par ∧ t.script = s.script ∧ pulsesSince s t [{ genDone := true }] ∧
      moore t.frm t.gen = { moore t.frm t.gen with
        irOut := false, modConnect := false, pwmEnable := false, tickIrqEn := false, hasEnded := true }

/-- XMIT_WAIT (R148): the framer sees the stopped generator, pulses `ir_done` and returns to AWAIT. -/
def Obligations.TransmissionEndReported : Prop :=
  ∀ (s : State) (I : Input), I.rst = false → s.frm.fstate = .xmit → s.gen.gstate = .idle →
    ∃ t, cycle I s = .next t ∧ t.frm = { s.frm with fstate := .await } ∧ t.fb = s.fb ∧ restKept s t ∧
      pulsesSince s t [{ irDone := true }]

/-- A start with `pulse_count = 0` completes at once, and one above MAX_PULSES also pulses `start_err`; neither touches the latched
registers, and no output is enabled (R182, R183). -/
def Obligations.StartsThatCompleteAtOnce : Prop :=
  ∀ (P : Params) (m : Memory) (st : Start) (F : Framer) (G : Generator),
    let G1 := { G with gstate := .idle, seg := 0, rem := 0, c := 0#14 }
    (st.pc = 0 → startGen P m st G = .ok { gen := G1, genDone := true, startErr := false }) ∧
    (P.maxPulses < st.pc → startGen P m st G = .ok { gen := G1, genDone := true, startErr := true }) ∧
    moore F G1 = { moore F G1 with irOut := false, modConnect := false, pwmEnable := false, tickIrqEn := false, hasEnded := true }

/-- A generation lasts exactly `P * L` cycles, `P` the effective period and `L` the sum of the segment lengths, whatever the inputs
without reset; `gen_done` pulses in the last of them, `ir_done` in the next (R194, R195, which the spec derives). -/
def Obligations.GenerationLastsPeriodTimesLength : Prop :=
  ∀ (s : State) (Is : List Input), Inv s → justStarted s → noReset Is →
    let n := max s.gen.gP.toNat 1 * segStart s.par s.fb s.frm.pbase (2 * s.gen.gpc)
    Is.length ≤ n + 1 →
    ∃ t, cycles Is s = .next t ∧ t.fb = s.fb ∧
      (Is.length < n → t.gen.gstate = .run ∧ t.frm = s.frm) ∧
      (Is.length = n → t.gen.gstate = .idle ∧ t.frm = s.frm ∧ t.trace.head?.map Output.pulses = some { genDone := true }) ∧
      (Is.length = n + 1 → t.gen.gstate = .idle ∧ t.frm = { s.frm with fstate := .await } ∧
        t.trace.head?.map Output.pulses = some { irDone := true })

/-- The waveform in closed form: after `k` cycles the segment is the one whose periods hold `k div P`, the modulator is connected in
even segments, and `ir_out` is 1 there in the first `gH` cycles of each period (R196, which the spec derives). -/
def Obligations.WaveformClosedForm : Prop :=
  ∀ (s : State) (Is : List Input) (sg : Nat), Inv s → justStarted s → noReset Is → sg < 2 * s.gen.gpc →
    segStart s.par s.fb s.frm.pbase sg ≤ Is.length / max s.gen.gP.toNat 1 →
    Is.length / max s.gen.gP.toNat 1 < segStart s.par s.fb s.frm.pbase (sg + 1) →
    ∃ t, cycles Is s = .next t ∧ t.gen.seg = sg ∧ modConnect t.gen = decide (sg % 2 = 0) ∧
      irOut t.gen = (decide (sg % 2 = 0) && decide (Is.length % max s.gen.gP.toNat 1 < s.gen.gH.toNat))

/-! The whole machine. -/

/-- The machine after reset meets the invariant (R51, R254). -/
def Obligations.InvariantHoldsAtReset : Prop := Inv State.reset

/-- Every step keeps the invariant of R51, from every state that meets it. -/
def Obligations.InvariantKeptByEveryStep : Prop :=
  ∀ s t : State, Inv s → step s = .next t → Inv t

/-- In a state that meets the invariant no step stops, and no operation does: neither the fatal path nor a read outside FB is reached
(R51, R234). -/
def Obligations.LegalStatesNeverStop : Prop :=
  ∀ s : State, Inv s → (∃ t, step s = .next t) ∧ ∀ i : Instr, ∃ t, exec i s = .next t

/-- In a state that meets the invariant no register holds a value outside its width (R11). -/
def Obligations.RegistersFitTheirWidths : Prop :=
  ∀ s : State, Inv s →
    s.frm.wr < 2 ^ s.par.wFb ∧ s.frm.pbase < 2 ^ s.par.wFb ∧ s.gen.rd < 2 ^ s.par.wFb ∧ s.frm.pc < 2 ^ s.par.wPc ∧
      s.gen.gpc < 2 ^ s.par.wPc ∧ s.gen.seg < 2 ^ s.par.wSeg ∧ s.frm.need < 2 ^ s.par.wNeed ∧ s.frm.g < 2 ^ s.par.wG ∧
      s.frm.q < 2 ^ s.par.wQ ∧ s.gen.rem < 2 ^ s.par.wDur

/-- With a buffer of at least `7 + 4 * MAX_PULSES` bytes FB_OVERFLOW cannot happen (R86; 90_conflicts.md C8). -/
def Obligations.FullCapacityNeverOverflows : Prop :=
  ∀ (s t : State) (I : Input), Inv s → 7 + 4 * s.par.maxPulses ≤ s.par.fbCapacity → cycle I s = .next t →
    (∃ o, t.trace = o :: s.trace ∧ o.pulses.rejectCause ≠ .fbOverflow)

/-- The fatal path (R234): without reset the model stops with what the block would hold, every register and FB unchanged, and with
`fatal` pulsed; with reset it goes on (log entry 6). -/
def Obligations.ReservedFieldIsFatal : Prop :=
  ∀ (s : State) (I : Input), s.frm.fstate = .recv → reservedField s.frm.field = true → s.gen.gstate = .idle →
    (I.rst = false → cycle I s = .fault (.fatal s.toBlock { moore := moore s.frm s.gen, pulses := { fatal := true } })) ∧
    (I.rst = true → ∃ t, cycle I s = .next t ∧ t.frm = Framer.reset)

/-- A cycle without reset stops where the spec asks a model to fault: the generator in RUN outside invariant 8 of R51, or a segment
load from outside FB (R234; 93 items 13 and 14; that a state of the first kind stops in every cycle is the model's, log entry 7). -/
def Obligations.IllegalGeneratorStops : Prop :=
  ∀ (s : State) (I : Input), I.rst = false → s.gen.gstate = .run →
    (¬ generatorLegal s.par s.frm s.gen → ∃ f, cycle I s = .fault f) ∧
    (generatorLegal s.par s.frm s.gen → s.gen.c.toNat + 1 = max s.gen.gP.toNat 1 → s.gen.rem ≤ 1 → s.gen.seg + 1 ≠ 2 * s.gen.gpc →
      s.par.fbCapacity ≤ s.gen.rd + 1 → ∃ a, cycle I s = .fault (.memRead a) ∧ (a = s.gen.rd ∨ a = s.gen.rd + 1))

/-- Only the framer writes FB, at most one byte a cycle: at 0 in AWAIT, at `wr` in RECV (R62, R69). -/
def Obligations.FrameBufferWrites : Prop :=
  ∀ (s t : State) (I : Input) (a : Nat), cycle I s = .next t → fbByte t.fb a ≠ fbByte s.fb a →
    I.rst = false ∧ (∃ b, I.rx = some b ∧ fbByte t.fb a = b) ∧
      ((s.frm.fstate = .await ∧ a = 0) ∨ (s.frm.fstate = .recv ∧ a = s.frm.wr ∧ a < s.par.fbCapacity))

/-- The generator starts only in the cycle that accepts the last duration byte of an IR frame (R160, which the spec derives). -/
def Obligations.StartOnlyByAcceptance : Prop :=
  ∀ (s t : State) (I : Input), cycle I s = .next t → s.gen.gstate = .idle → t.gen.gstate = .run →
    I.rst = false ∧ s.frm.fstate = .recv ∧ s.frm.field = .pairs ∧ s.frm.need = 1 ∧ s.frm.wr ≠ s.par.fbCapacity ∧
      (∃ b, I.rx = some b) ∧ t.frm.fstate = .xmit ∧
      ∃ o, t.trace = o :: s.trace ∧ o.pulses.frameAccepted = true ∧ o.pulses.frameKind = 0x01#8

/-- The Moore outputs as numbers: `rx_ready` (R22), `bg_yield` (R23), the generator's five (R189, R190), and the status word by its bit
places, the reserved bits 7 and 11 to 15 reading 0 and the reset value `0x0000` (R26, with the codes of R30, R31, R42 and R43). -/
def Obligations.MooreOutputs : Prop :=
  ∀ (F : Framer) (G : Generator),
    (moore F G).rxReady = decide (F.fstate ≠ .xmit) ∧ (moore F G).bgYield = decide (F.fstate = .await) ∧
    (moore F G).irOut = (decide (G.gstate = .run) && decide (G.seg % 2 = 0) && decide (G.c.toNat < G.gH.toNat)) ∧
    (moore F G).modConnect = (decide (G.gstate = .run) && decide (G.seg % 2 = 0)) ∧
    (moore F G).pwmEnable = decide (G.gstate = .run) ∧ (moore F G).tickIrqEn = decide (G.gstate = .run) ∧
    (moore F G).hasEnded = decide (G.gstate = .idle) ∧ (moore Framer.reset Generator.reset).status = 0x0000#16 ∧
    ∃ f d g c : Nat,
      (moore F G).status.toNat = f + 4 * d + (if F.vhave then 32 else 0) + 64 * g + 256 * c ∧
      (F.fstate, f) ∈ [(FState.await, 0), (.recv, 1), (.quar, 2), (.xmit, 3)] ∧
      (F.field, d) ∈ [(Field.plen, 0), (.pcount, 1), (.cper, 2), (.chigh, 3), (.pairs, 4), (.reserved5, 5), (.reserved6, 6),
        (.reserved7, 7)] ∧
      (G.gstate, g) ∈ [(GState.idle, 0), (.run, 1)] ∧
      (F.rejCause, c) ∈ [(Cause.none, 0), (.badKind, 1), (.badPayloadLen, 2), (.varintOverlong, 3), (.badPulseCount, 4),
        (.badCarrier, 5), (.fbOverflow, 6), (.timeout, 7)]

/-- One output record per cycle: the Moore outputs of the state it starts in; `frame_accepted`, `reject` and `ir_done` exclude each
other; the qualified fields are 0 without their pulse; a reset cycle pulses nothing (R21, R24). -/
def Obligations.PulsesExclusiveAndQualified : Prop :=
  ∀ (s t : State) (I : Input), cycle I s = .next t →
    ∃ o, t.trace = o :: s.trace ∧ o.moore = moore s.frm s.gen ∧
      ¬ (o.pulses.frameAccepted = true ∧ o.pulses.reject = true) ∧
      ¬ (o.pulses.frameAccepted = true ∧ o.pulses.irDone = true) ∧
      ¬ (o.pulses.reject = true ∧ o.pulses.irDone = true) ∧
      (o.pulses.frameAccepted = false → o.pulses.frameKind = 0x00#8) ∧
      (o.pulses.reject = false → o.pulses.rejectCause = .none) ∧
      (I.rst = true → o.pulses = {})

/-- In AWAIT with no byte and the generator stopped nothing changes: gticks and wedges are ignored and `bg_yield` is 1 (R133, R9). -/
def Obligations.QuiescentStateUnchanged : Prop :=
  ∀ (s : State) (gtick wedged : Bool), s.frm.fstate = .await → s.gen.gstate = .idle →
    ∃ t, cycle { rst := false, rx := none, gtick := gtick, wedged := wedged } s = .next t ∧ t.frm = s.frm ∧ t.fb = s.fb ∧
      restKept s t ∧ pulsesSince s t [{}] ∧ bgYield t.frm = true ∧
      (gtick = true → exec (.evGtick wedged) s = .next t) ∧
      (gtick = false → wedged = true → exec (.evWedged none false) s = .next t)

/-- What FB held before the frame in progress is never observed: two states that agree on the registers and on the bytes of the frame
so far go on with the same registers and outputs, and agree again (R61, R65, R251, V110). -/
def Obligations.OldBufferContentsUnobserved : Prop :=
  ∀ (s u s' : State) (I : Input), Inv s → u.par = s.par → u.frm = s.frm → u.gen = s.gen → u.trace = s.trace →
    (s.frm.fstate = .recv ∨ s.frm.fstate = .xmit → ∀ a, a < s.frm.wr → fbByte u.fb a = fbByte s.fb a) →
    cycle I s = .next s' →
    ∃ u', cycle I u = .next u' ∧ u'.par = s'.par ∧ u'.frm = s'.frm ∧ u'.gen = s'.gen ∧ u'.trace = s'.trace ∧
      (s'.frm.fstate = .recv ∨ s'.frm.fstate = .xmit → ∀ a, a < s'.frm.wr → fbByte u'.fb a = fbByte s'.fb a)

/-- The block does not change because of a byte it does not accept (R20, R22). -/
def Obligations.UnacceptedByteHasNoEffect : Prop :=
  ∀ (s : State) (I : Input) (b : Byte), rxReady s.frm = false → cycle { I with rx := some b } s = cycle { I with rx := none } s

/-- The guard timer and the clearance interval end: so many gticks without a byte reject the frame in progress, or return the framer
to AWAIT (R164, which the spec derives from R142 and R146). -/
def Obligations.TimersExpire : Prop :=
  ∀ s : State, s.gen.gstate = .idle →
    (s.frm.fstate = .recv → reservedField s.frm.field = false → s.frm.g < s.par.tInterbyte →
      ∃ t, cycles (List.replicate (s.par.tInterbyte - s.frm.g) gtickOnly) s = .next t ∧ t.frm = rejected .timeout s.frm ∧ t.fb = s.fb) ∧
    (s.frm.fstate = .quar → s.frm.q < s.par.tClear →
      ∃ t, cycles (List.replicate (s.par.tClear - s.frm.q) gtickOnly) s = .next t ∧
        t.frm = { s.frm with fstate := .await, q := 0 } ∧ t.fb = s.fb)

/-- Quarantine ends only by reset or by the gtick that completes the clearance interval with no byte accepted (R162, R224; the spec
derives R162). -/
def Obligations.QuarantineExits : Prop :=
  ∀ (s t : State) (I : Input), cycle I s = .next t → s.frm.fstate = .quar → t.frm.fstate ≠ .quar →
    t.frm.fstate = .await ∧ (I.rst = true ∨ (I.rx = none ∧ I.gtick = true ∧ s.par.tClear ≤ s.frm.q + 1 ∧ t.frm.q = 0))

/-- `rej_cause` holds the cause of the most recent rejection and is sticky: a reset cycle clears it, a cycle that pulses `reject` sets it
to the pulsed cause, and no other cycle changes it (R42). -/
def Obligations.RejectCauseSticky : Prop :=
  ∀ (s t : State) (I : Input), cycle I s = .next t →
    ∃ o, t.trace = o :: s.trace ∧ (I.rst = true → t.frm.rejCause = .none) ∧
      (o.pulses.reject = true → t.frm.rejCause = o.pulses.rejectCause) ∧
      (I.rst = false → o.pulses.reject = false → t.frm.rejCause = s.frm.rejCause)
end

