-- ==== Sys2Proof/Laws/State.lean ====
section
/-! SUPPORT. What each update of the state leaves in each field. -/

namespace Sys2Proof.Machine

@[simp] theorem advance_toBlock (s : State) (r : Block × Output) : (s.advance r).toBlock = r.1 := rfl
@[simp] theorem advance_par (s : State) (r : Block × Output) : (s.advance r).par = s.par := rfl
@[simp] theorem advance_frm (s : State) (r : Block × Output) : (s.advance r).frm = r.1.frm := rfl
@[simp] theorem advance_gen (s : State) (r : Block × Output) : (s.advance r).gen = r.1.gen := rfl
@[simp] theorem advance_fb (s : State) (r : Block × Output) : (s.advance r).fb = r.1.fb := rfl
@[simp] theorem advance_script (s : State) (r : Block × Output) : (s.advance r).script = s.script := rfl
@[simp] theorem advance_trace (s : State) (r : Block × Output) : (s.advance r).trace = r.2 :: s.trace := rfl

@[simp] theorem withScript_toBlock (s : State) (l : List Item) : (s.withScript l).toBlock = s.toBlock := rfl
@[simp] theorem withScript_par (s : State) (l : List Item) : (s.withScript l).par = s.par := rfl
@[simp] theorem withScript_frm (s : State) (l : List Item) : (s.withScript l).frm = s.frm := rfl
@[simp] theorem withScript_gen (s : State) (l : List Item) : (s.withScript l).gen = s.gen := rfl
@[simp] theorem withScript_fb (s : State) (l : List Item) : (s.withScript l).fb = s.fb := rfl
@[simp] theorem withScript_script (s : State) (l : List Item) : (s.withScript l).script = l := rfl
@[simp] theorem withScript_trace (s : State) (l : List Item) : (s.withScript l).trace = s.trace := rfl

@[simp] theorem hold_toBlock (s : State) (bs : List Byte) : (s.hold bs).toBlock = s.toBlock := rfl
@[simp] theorem hold_par (s : State) (bs : List Byte) : (s.hold bs).par = s.par := rfl
@[simp] theorem hold_frm (s : State) (bs : List Byte) : (s.hold bs).frm = s.frm := rfl
@[simp] theorem hold_gen (s : State) (bs : List Byte) : (s.hold bs).gen = s.gen := rfl
@[simp] theorem hold_fb (s : State) (bs : List Byte) : (s.hold bs).fb = s.fb := rfl
@[simp] theorem hold_script (s : State) (bs : List Byte) : (s.hold bs).script = pushBytes bs s.script := rfl
@[simp] theorem hold_trace (s : State) (bs : List Byte) : (s.hold bs).trace = s.trace := rfl
@[simp] theorem hold_nil (s : State) : s.hold [] = s := rfl

@[simp] theorem resetState_frm (S : Block) : (resetState S).frm = Framer.reset := rfl
@[simp] theorem resetState_gen (S : Block) : (resetState S).gen = Generator.reset := rfl
@[simp] theorem resetState_fb (S : Block) : (resetState S).fb = S.fb := rfl

@[simp] theorem pushBytes_nil (l : List Item) : pushBytes [] l = l := rfl
@[simp] theorem pushBytes_cons (b : Byte) (bs : List Byte) (l : List Item) : pushBytes (b :: bs) l = .bytes b bs :: l := rfl

@[simp] theorem outputOf_pulses (S : Block) (p : Pulses) : (outputOf S p).pulses = p := rfl
@[simp] theorem outputOf_moore (S : Block) (p : Pulses) : (outputOf S p).moore = moore S.frm S.gen := rfl

/-! What REJECT does (R144), field by field. -/

@[simp] theorem reject_fstate (c : Cause) (F : Framer) (w : Option (Nat × Byte)) : (reject c F w).frm.fstate = .quar := rfl
@[simp] theorem reject_field (c : Cause) (F : Framer) (w : Option (Nat × Byte)) : (reject c F w).frm.field = F.field := rfl
@[simp] theorem reject_vhave (c : Cause) (F : Framer) (w : Option (Nat × Byte)) : (reject c F w).frm.vhave = false := rfl
@[simp] theorem reject_vlow (c : Cause) (F : Framer) (w : Option (Nat × Byte)) : (reject c F w).frm.vlow = F.vlow := rfl
@[simp] theorem reject_kind (c : Cause) (F : Framer) (w : Option (Nat × Byte)) : (reject c F w).frm.kind = F.kind := rfl
@[simp] theorem reject_pc (c : Cause) (F : Framer) (w : Option (Nat × Byte)) : (reject c F w).frm.pc = F.pc := rfl
@[simp] theorem reject_cper (c : Cause) (F : Framer) (w : Option (Nat × Byte)) : (reject c F w).frm.cper = F.cper := rfl
@[simp] theorem reject_chigh (c : Cause) (F : Framer) (w : Option (Nat × Byte)) : (reject c F w).frm.chigh = F.chigh := rfl
@[simp] theorem reject_pbase (c : Cause) (F : Framer) (w : Option (Nat × Byte)) : (reject c F w).frm.pbase = F.pbase := rfl
@[simp] theorem reject_need (c : Cause) (F : Framer) (w : Option (Nat × Byte)) : (reject c F w).frm.need = F.need := rfl
@[simp] theorem reject_wr (c : Cause) (F : Framer) (w : Option (Nat × Byte)) : (reject c F w).frm.wr = F.wr := rfl
@[simp] theorem reject_g (c : Cause) (F : Framer) (w : Option (Nat × Byte)) : (reject c F w).frm.g = 0 := rfl
@[simp] theorem reject_q (c : Cause) (F : Framer) (w : Option (Nat × Byte)) : (reject c F w).frm.q = 0 := rfl
@[simp] theorem reject_rejCause (c : Cause) (F : Framer) (w : Option (Nat × Byte)) : (reject c F w).frm.rejCause = c := rfl
@[simp] theorem reject_write (c : Cause) (F : Framer) (w : Option (Nat × Byte)) : (reject c F w).write = w := rfl
@[simp] theorem reject_start (c : Cause) (F : Framer) (w : Option (Nat × Byte)) : (reject c F w).start = none := rfl
@[simp] theorem reject_pulses (c : Cause) (F : Framer) (w : Option (Nat × Byte)) :
    (reject c F w).pulses = { reject := true, rejectCause := c } := rfl

end Sys2Proof.Machine
end

