-- ==== Sys2Proof/Laws/Memory.lean ====
section
/-! SUPPORT. The FrameBuffer: a read after a write, the canonical form, the addresses in use. -/

namespace Sys2Proof.Machine

theorem read_write_same (m : Memory) (a : Nat) (v : Byte) : (m.write a v).read a = some v := by
  induction m with
  | nil => simp [Memory.write, Memory.read]
  | cons c m ih =>
    obtain ⟨k, u⟩ := c
    by_cases h1 : a < k
    · simp [Memory.write, Memory.read, h1]
    · by_cases h2 : a = k
      · simp [Memory.write, Memory.read, h2]
      · simp [Memory.write, Memory.read, h1, h2, Ne.symm h2, ih]

theorem read_write_other (m : Memory) (a b : Nat) (v : Byte) (h : b ≠ a) : (m.write a v).read b = m.read b := by
  induction m with
  | nil => simp [Memory.write, Memory.read, h.symm]
  | cons c m ih =>
    obtain ⟨k, u⟩ := c
    by_cases h1 : a < k
    · simp [Memory.write, Memory.read, h1, h.symm]
    · by_cases h2 : a = k
      · subst h2; simp [Memory.write, Memory.read, h.symm]
      · by_cases h3 : k = b
        · subst h3; simp [Memory.write, Memory.read, h1, h2]
        · simp [Memory.write, Memory.read, h1, h2, h3, ih]

/-- A byte reads as it was written last. -/
@[simp] theorem fbByte_write_same (m : Memory) (a : Nat) (v : Byte) : fbByte (m.write a v) a = v := by
  simp [fbByte, read_write_same]

theorem fbByte_write_other (m : Memory) (a b : Nat) (v : Byte) (h : b ≠ a) : fbByte (m.write a v) b = fbByte m b := by
  simp [fbByte, read_write_other m a b v h]

theorem wf_tail {c : Host.Cell} {m : Memory} (h : Memory.wf (c :: m) = true) : Memory.wf m = true := by
  obtain ⟨a, u⟩ := c
  cases m with
  | nil => rfl
  | cons d m => obtain ⟨b, v⟩ := d; simp [Memory.wf] at h; exact h.2

/-- A list in front of whose head a smaller address stands is still in canonical form. -/
theorem wf_cons_iff (a : Nat) (u : Byte) (m : Memory) :
    Memory.wf ((a, u) :: m) = true ↔ Memory.wf m = true ∧ ∀ b v, m.head? = some (b, v) → a < b := by
  cases m with
  | nil => simp [Memory.wf]
  | cons d m => obtain ⟨b, v⟩ := d; simp [Memory.wf, and_comm]

theorem head_write (m : Memory) (a : Nat) (v : Byte) :
    ∃ k u, (m.write a v).head? = some (k, u) ∧ (k = a ∨ ∃ w, m.head? = some (k, w)) := by
  cases m with
  | nil => exact ⟨a, v, rfl, .inl rfl⟩
  | cons d m =>
    obtain ⟨k, u⟩ := d
    by_cases h1 : a < k
    · exact ⟨a, v, by simp [Memory.write, h1], .inl rfl⟩
    · by_cases h2 : a = k
      · exact ⟨a, v, by simp [Memory.write, h2], .inl rfl⟩
      · exact ⟨k, u, by simp [Memory.write, h1, h2], .inr ⟨u, rfl⟩⟩

/-- A write keeps the canonical form. -/
theorem wf_write (m : Memory) (a : Nat) (v : Byte) (h : m.wf = true) : (m.write a v).wf = true := by
  induction m with
  | nil => rfl
  | cons d m ih =>
    obtain ⟨k, u⟩ := d
    have hm := wf_tail h
    by_cases h1 : a < k
    · simp only [Memory.write, if_pos h1, Memory.wf, Bool.and_eq_true, decide_eq_true_eq]
      exact ⟨h1, h⟩
    · by_cases h2 : a = k
      · subst h2
        simp only [Memory.write, lt_irrefl, if_false, if_true]
        rw [wf_cons_iff] at h ⊢
        exact h
      · simp only [Memory.write, if_neg h1, if_neg h2]
        rw [wf_cons_iff] at h ⊢
        refine ⟨ih hm, ?_⟩
        intro b w hb
        obtain ⟨k', u', hk, hor⟩ := head_write m a v
        rw [hk] at hb
        injection hb with hb
        injection hb with hb1 hb2
        subst hb1
        rcases hor with rfl | ⟨w', hw⟩
        · omega
        · exact h.2 _ _ hw

/-- A write at an address that exists lists no address that does not. -/
theorem within_write (cap : Nat) (m : Memory) (a : Nat) (v : Byte) (h : m.within cap = true) (ha : a < cap) :
    (m.write a v).within cap = true := by
  induction m with
  | nil => simp [Memory.write, Memory.within, ha]
  | cons d m ih =>
    obtain ⟨k, u⟩ := d
    simp only [Memory.within, List.all_cons, Bool.and_eq_true, decide_eq_true_eq] at h ih
    by_cases h1 : a < k
    · simp only [Memory.write, if_pos h1, Memory.within, List.all_cons, Bool.and_eq_true, decide_eq_true_eq]
      exact ⟨ha, h⟩
    · by_cases h2 : a = k
      · simp only [Memory.write, if_neg h1, if_pos h2, Memory.within, List.all_cons, Bool.and_eq_true, decide_eq_true_eq]
        exact ⟨ha, h.2⟩
      · simp only [Memory.write, if_neg h1, if_neg h2, Memory.within, List.all_cons, Bool.and_eq_true, decide_eq_true_eq]
        exact ⟨h.1, ih h.2⟩

/-- What `MemRead` can answer. -/
theorem memRead_cases (P : Params) (m : Memory) (a : Nat) :
    (a < P.fbCapacity ∧ memRead P m a = .ok (fbByte m a)) ∨ (P.fbCapacity ≤ a ∧ memRead P m a = .error (.memRead a)) := by
  by_cases h : a < P.fbCapacity
  · exact .inl ⟨h, by simp [memRead, h]⟩
  · exact .inr ⟨by omega, by simp [memRead, h]⟩

/-- A duration inside FB is read through DUR (R63). -/
theorem readDuration_ok (P : Params) (m : Memory) (a : Nat) (h : a + 1 < P.fbCapacity) :
    readDuration P m a = .ok (dur P.durationEncoding (fbByte m a) (fbByte m (a + 1))) := by
  have h0 : a < P.fbCapacity := by omega
  simp [readDuration, memRead, h, h0]

/-- Every value DUR gives fits `W_DUR` bits (R11, R118). -/
theorem dur_lt (P : Params) (b0 b1 : Byte) : dur P.durationEncoding b0 b1 < 2 ^ P.wDur := by
  unfold Params.wDur
  cases P.durationEncoding with
  | split7 => exact (join7 (low7 b0) (low7 b1)).isLt
  | le16 => exact (join8 b0 b1).isLt

end Sys2Proof.Machine
end

