-- ==== Sys2Proof/Laws/Cycle.lean ====
section
/-! SUPPORT. What one cycle can do, said once; how a delivery of bytes unfolds. -/

namespace Sys2Proof.Machine

/-- What a cycle without reset gives, from what its parts give (R8). -/
def blockResult (S : Block) (g : GenResult) (r : FrmResult) (fb : Memory) (st : GenResult) : Block × Output :=
  ({ frm := r.frm, gen := st.gen, fb := fb },
    outputOf S { r.pulses with genDone := g.genDone || st.genDone, startErr := st.startErr })

/-- The same in its surroundings. -/
def cycleResult (s : State) (g : GenResult) (r : FrmResult) (fb : Memory) (st : GenResult) : State :=
  s.advance (blockResult s.toBlock g r fb st)

@[simp] theorem cycleResult_par (s : State) (g r fb st) : (cycleResult s g r fb st).par = s.par := rfl
@[simp] theorem cycleResult_frm (s : State) (g r fb st) : (cycleResult s g r fb st).frm = r.frm := rfl
@[simp] theorem cycleResult_gen (s : State) (g r fb st) : (cycleResult s g r fb st).gen = st.gen := rfl
@[simp] theorem cycleResult_fb (s : State) (g r fb st) : (cycleResult s g r fb st).fb = fb := rfl
@[simp] theorem cycleResult_script (s : State) (g r fb st) : (cycleResult s g r fb st).script = s.script := rfl
@[simp] theorem cycleResult_trace (s : State) (g : GenResult) (r : FrmResult) (fb : Memory) (st : GenResult) :
    (cycleResult s g r fb st).trace =
      outputOf s.toBlock { r.pulses with genDone := g.genDone || st.genDone, startErr := st.startErr } :: s.trace := rfl

/-- A reset cycle of the block (R250). -/
theorem blockStep_reset (P : Params) (S : Block) (I : Input) (h : I.rst = true) :
    blockStep P S I = .ok (resetState S, outputOf S {}) := by
  simp [blockStep, h]

/-- A cycle of the block whose parts succeed gives what they give. -/
theorem blockStep_parts (P : Params) (S : Block) (I : Input) (g : GenResult) (fb : Memory) (st : GenResult) (h0 : I.rst = false)
    (hg : genStep P S.fb S.gen = .ok g) (hw : storeByte P S.fb (frmStep P S.frm S.gen.gstate I).write = .ok fb)
    (hs : startOrKeep P fb (frmStep P S.frm S.gen.gstate I).start g.gen = .ok st)
    (hf : (frmStep P S.frm S.gen.gstate I).pulses.fatal = false) (hl : generatorLegal P S.frm S.gen) :
    blockStep P S I = .ok (blockResult S g (frmStep P S.frm S.gen.gstate I) fb st) := by
  unfold blockStep
  rw [if_neg (by simp [h0]), hg]
  simp only [hw, hs, hf, Bool.false_eq_true, if_false, if_pos hl, blockResult]

/-- Everything a cycle of the block that goes on can have done: a reset, or the parts of R8. -/
theorem blockStep_ok (P : Params) (S : Block) (I : Input) (r : Block × Output) (h : blockStep P S I = .ok r) :
    (I.rst = true ∧ r = (resetState S, outputOf S {})) ∨
    (I.rst = false ∧ ∃ g fb st, genStep P S.fb S.gen = .ok g ∧
      storeByte P S.fb (frmStep P S.frm S.gen.gstate I).write = .ok fb ∧
      startOrKeep P fb (frmStep P S.frm S.gen.gstate I).start g.gen = .ok st ∧
      (frmStep P S.frm S.gen.gstate I).pulses.fatal = false ∧ generatorLegal P S.frm S.gen ∧
      r = blockResult S g (frmStep P S.frm S.gen.gstate I) fb st) := by
  cases h0 : I.rst with
  | true =>
    rw [blockStep_reset P S I h0] at h
    injection h with h
    exact .inl ⟨rfl, h.symm⟩
  | false =>
    refine .inr ⟨rfl, ?_⟩
    unfold blockStep at h
    rw [if_neg (by simp [h0])] at h
    cases hg : genStep P S.fb S.gen with
    | error e => simp [hg] at h
    | ok g =>
      simp only [hg] at h
      cases hw : storeByte P S.fb (frmStep P S.frm S.gen.gstate I).write with
      | error e => simp [hw] at h
      | ok fb =>
        simp only [hw] at h
        cases hs : startOrKeep P fb (frmStep P S.frm S.gen.gstate I).start g.gen with
        | error e => simp [hs] at h
        | ok st =>
          simp only [hs] at h
          cases hf : (frmStep P S.frm S.gen.gstate I).pulses.fatal with
          | true => simp [hf] at h
          | false =>
            by_cases hl : generatorLegal P S.frm S.gen
            · rw [if_neg (by simp [hf]), if_pos hl] at h
              injection h with h
              exact ⟨g, fb, st, rfl, rfl, hs, rfl, hl, h.symm⟩
            · rw [if_neg (by simp [hf]), if_neg hl] at h
              exact absurd h (by simp)

/-- A cycle answers exactly where the block's step does, with its state and outputs in the same surroundings. -/
theorem cycle_eq_next (I : Input) (s t : State) :
    cycle I s = .next t ↔ ∃ r, blockStep s.par s.toBlock I = .ok r ∧ t = s.advance r := by
  unfold cycle
  cases blockStep s.par s.toBlock I <;> simp [eq_comm]

/-- A reset cycle (R250). -/
theorem cycle_reset (I : Input) (s : State) (h : I.rst = true) :
    cycle I s = .next (s.advance (resetState s.toBlock, outputOf s.toBlock {})) := by
  simp [cycle, blockStep_reset _ _ I h]

/-- A cycle whose parts succeed answers the state they give. -/
theorem cycle_ok (I : Input) (s : State) (g : GenResult) (fb : Memory) (st : GenResult) (h0 : I.rst = false)
    (hg : genStep s.par s.fb s.gen = .ok g)
    (hw : storeByte s.par s.fb (frmStep s.par s.frm s.gen.gstate I).write = .ok fb)
    (hs : startOrKeep s.par fb (frmStep s.par s.frm s.gen.gstate I).start g.gen = .ok st)
    (hf : (frmStep s.par s.frm s.gen.gstate I).pulses.fatal = false) (hl : generatorLegal s.par s.frm s.gen) :
    cycle I s = .next (cycleResult s g (frmStep s.par s.frm s.gen.gstate I) fb st) :=
  (cycle_eq_next I s _).2 ⟨_, blockStep_parts s.par s.toBlock I g fb st h0 hg hw hs hf hl, rfl⟩

/-- Everything a cycle that goes on can have done: a reset, or the parts of R8. -/
theorem cycle_next (I : Input) (s t : State) (h : cycle I s = .next t) :
    (I.rst = true ∧ t = s.advance (resetState s.toBlock, outputOf s.toBlock {})) ∨
    (I.rst = false ∧ ∃ g fb st, genStep s.par s.fb s.gen = .ok g ∧
      storeByte s.par s.fb (frmStep s.par s.frm s.gen.gstate I).write = .ok fb ∧
      startOrKeep s.par fb (frmStep s.par s.frm s.gen.gstate I).start g.gen = .ok st ∧
      (frmStep s.par s.frm s.gen.gstate I).pulses.fatal = false ∧ generatorLegal s.par s.frm s.gen ∧
      t = cycleResult s g (frmStep s.par s.frm s.gen.gstate I) fb st) := by
  obtain ⟨r, hr, rfl⟩ := (cycle_eq_next I s t).1 h
  rcases blockStep_ok s.par s.toBlock I r hr with ⟨h0, rfl⟩ | ⟨h0, g, fb, st, hg, hw, hs, hf, hl, rfl⟩
  · exact .inl ⟨h0, rfl⟩
  · exact .inr ⟨h0, g, fb, st, hg, hw, hs, hf, hl, rfl⟩

/-- With the generator stopped its step changes nothing (R180). -/
theorem genStep_idle (P : Params) (m : Memory) (G : Generator) (h : G.gstate = .idle) : genStep P m G = .ok { gen := G } := by
  simp [genStep, h]

theorem generatorLegal_idle (P : Params) (F : Framer) (G : Generator) (h : G.gstate = .idle) : generatorLegal P F G := by
  intro hr; simp [h] at hr

/-- A cycle with the generator stopped in which the framer stores nothing and starts nothing. -/
theorem cycle_idle_quiet (I : Input) (s : State) (h0 : I.rst = false) (hi : s.gen.gstate = .idle)
    (hw : (frmStep s.par s.frm s.gen.gstate I).write = none) (hs : (frmStep s.par s.frm s.gen.gstate I).start = none)
    (hf : (frmStep s.par s.frm s.gen.gstate I).pulses.fatal = false) :
    cycle I s = .next (cycleResult s { gen := s.gen } (frmStep s.par s.frm s.gen.gstate I) s.fb { gen := s.gen }) :=
  cycle_ok I s _ _ _ h0 (genStep_idle _ _ _ hi) (by simp [storeByte, hw]) (by simp [startOrKeep, hs]) hf
    (generatorLegal_idle _ _ _ hi)

/-- A cycle with the generator stopped in which the framer stores a byte that fits and starts nothing. -/
theorem cycle_idle_store (I : Input) (s : State) (a : Nat) (b : Byte) (h0 : I.rst = false) (hi : s.gen.gstate = .idle)
    (hw : (frmStep s.par s.frm s.gen.gstate I).write = some (a, b)) (ha : a < s.par.fbCapacity)
    (hs : (frmStep s.par s.frm s.gen.gstate I).start = none)
    (hf : (frmStep s.par s.frm s.gen.gstate I).pulses.fatal = false) :
    cycle I s = .next (cycleResult s { gen := s.gen } (frmStep s.par s.frm s.gen.gstate I) (s.fb.write a b) { gen := s.gen }) :=
  cycle_ok I s _ _ _ h0 (genStep_idle _ _ _ hi) (by simp [storeByte, hw, memWrite, ha]) (by simp [startOrKeep, hs]) hf
    (generatorLegal_idle _ _ _ hi)

/-- No cycle writes the parameters or the coming inputs. -/
theorem cycle_keeps (I : Input) (s t : State) (h : cycle I s = .next t) : t.par = s.par ∧ t.script = s.script := by
  rcases cycle_next I s t h with ⟨_, rfl⟩ | ⟨_, g, fb, st, _, _, _, _, _, rfl⟩ <;> exact ⟨rfl, rfl⟩

@[simp] theorem andThen_next (s : State) (f : State → Host.Outcome State Fault Refusal) : andThen (.next s) f = f s := rfl

/-- An outcome goes on through `andThen` exactly when it went on before. -/
theorem andThen_eq_next (o : Host.Outcome State Fault Refusal) (f : State → Host.Outcome State Fault Refusal) (t : State) :
    andThen o f = .next t ↔ ∃ s, o = .next s ∧ f s = .next t := by
  cases o <;> simp [andThen]

@[simp] theorem deliver_nil (s : State) : deliver [] s = .next s := rfl

/-- A byte offered while the block is ready is one cycle, then the bytes behind it (R131). -/
theorem deliver_ready (b : Byte) (bs : List Byte) (s : State) (h : rxReady s.frm = true) :
    deliver (b :: bs) s = andThen (cycle (offer b) s) (deliver bs) := by
  simp [deliver, h]

/-- A byte offered while the block is not ready is one cycle, and every byte waits (R256). -/
theorem deliver_busy (b : Byte) (bs : List Byte) (s : State) (h : rxReady s.frm = false) :
    deliver (b :: bs) s = andThen (cycle (offer b) s) fun t => .next (t.hold (b :: bs)) := by
  simp [deliver, h]

/-- A property that every cycle keeps, and that does not look at the coming inputs, is kept by a delivery. -/
theorem deliver_keeps (Q : State → Prop) (hc : ∀ I s t, Q s → cycle I s = .next t → Q t)
    (hh : ∀ s bs, Q s → Q (s.hold bs)) (bs : List Byte) (s t : State) (hq : Q s) (h : deliver bs s = .next t) : Q t := by
  induction bs generalizing s with
  | nil => injection h with h; exact h ▸ hq
  | cons b bs ih =>
    cases hr : rxReady s.frm with
    | true =>
      rw [deliver_ready b bs s hr, andThen_eq_next] at h
      obtain ⟨u, hu, ht⟩ := h
      exact ih u (hc _ _ _ hq hu) ht
    | false =>
      rw [deliver_busy b bs s hr, andThen_eq_next] at h
      obtain ⟨u, hu, ht⟩ := h
      injection ht with ht
      exact ht ▸ hh u _ (hc _ _ _ hq hu)

/-- While the block is ready an event is exactly its cycle. -/
theorem eventCycle_ready (I : Input) (s : State) (h : rxReady s.frm = true) : eventCycle I s = cycle I s := by
  simp [eventCycle, h]

/-- While the block is busy an event is its cycle, and a byte it offers waits (R256). -/
theorem eventCycle_busy (I : Input) (s : State) (h : rxReady s.frm = false) :
    eventCycle I s = andThen (cycle I s) fun t => .next (t.hold I.rx.toList) := by
  simp [eventCycle, h]

/-- An event that offers no byte is exactly its cycle. -/
theorem eventCycle_noByte (I : Input) (s : State) (h : I.rx = none) : eventCycle I s = cycle I s := by
  unfold eventCycle
  split
  · rfl
  · cases cycle I s <;> simp [andThen, h]

end Sys2Proof.Machine
end

