-- ==== Sys2Proof/Laws/Codec.lean ====
section
/-! SUPPORT. The bit fields of a byte, the varint step and the duration read, said once for the decoder and the framer. -/

namespace Sys2Proof.Machine

@[simp] theorem bit7_byteOf (top : Bool) (g : Group) : bit7 (byteOf top g) = top := by
  revert g; cases top <;> decide

@[simp] theorem low7_byteOf (top : Bool) (g : Group) : low7 (byteOf top g) = g := by
  revert g; cases top <;> decide

/-- A byte is its bit 7 and its low seven bits. -/
theorem byteOf_bit7_low7 (b : Byte) : byteOf (bit7 b) (low7 b) = b := by
  revert b; decide

/-- Bit 7 as a number: the byte is 128 or more. -/
theorem bit7_eq (b : Byte) : bit7 b = decide (128 ≤ b.toNat) := by
  revert b; decide

theorem low7_toNat (b : Byte) : (low7 b).toNat = b.toNat % 128 := by
  simp [low7]

/-- Two groups joined, as a number (R110, R118). -/
theorem join7_toNat (l h : Group) : (join7 l h).toNat = l.toNat + 128 * h.toNat := by
  have hl := l.isLt
  have hh := h.isLt
  have e : (join7 l h).toNat = (h.toNat <<< 7) ||| l.toNat := by
    simp only [join7, BitVec.toNat_or, BitVec.toNat_shiftLeft, BitVec.toNat_setWidth]
    rw [Nat.mod_eq_of_lt (by omega : l.toNat < 2 ^ 14), Nat.mod_eq_of_lt (by omega : h.toNat < 2 ^ 14),
      Nat.mod_eq_of_lt (by rw [Nat.shiftLeft_eq]; omega), Nat.or_comm]
  rw [e, ← Nat.shiftLeft_add_eq_or_of_lt (by omega), Nat.shiftLeft_eq]
  omega

/-- Two bytes joined, as a number (R118). -/
theorem join8_toNat (l h : Byte) : (join8 l h).toNat = l.toNat + 256 * h.toNat := by
  have hl := l.isLt
  have hh := h.isLt
  have e : (join8 l h).toNat = (h.toNat <<< 8) ||| l.toNat := by
    simp only [join8, BitVec.toNat_or, BitVec.toNat_shiftLeft, BitVec.toNat_setWidth]
    rw [Nat.mod_eq_of_lt (by omega : l.toNat < 2 ^ 16), Nat.mod_eq_of_lt (by omega : h.toNat < 2 ^ 16),
      Nat.mod_eq_of_lt (by rw [Nat.shiftLeft_eq]; omega), Nat.or_comm]
  rw [e, ← Nat.shiftLeft_add_eq_or_of_lt (by omega), Nat.shiftLeft_eq]
  omega

/-! VSTEP on the four kinds of byte (R110). -/

@[simp] theorem vstep_single (vlow g : Group) : vstep false vlow (byteOf false g) = .done (g.setWidth 14) := by
  simp [vstep]

@[simp] theorem vstep_first (vlow g : Group) : vstep false vlow (byteOf true g) = .more g := by
  simp [vstep]

@[simp] theorem vstep_second (vlow g : Group) : vstep true vlow (byteOf false g) = .done (join7 vlow g) := by
  simp [vstep]

@[simp] theorem vstep_third (vlow g : Group) : vstep true vlow (byteOf true g) = .overlong := by
  simp [vstep]

/-- What VSTEP can answer: a value, a first group only when none is held, or a third byte only when one is. -/
theorem vstep_cases (vhave : Bool) (vlow : Group) (b : Byte) :
    (∃ v, vstep vhave vlow b = .done v ∧ bit7 b = false) ∨
    (vstep vhave vlow b = .more (low7 b) ∧ vhave = false ∧ bit7 b = true) ∨
    (vstep vhave vlow b = .overlong ∧ vhave = true ∧ bit7 b = true) := by
  cases vhave <;> cases h : bit7 b <;> simp [vstep, h]

end Sys2Proof.Machine
end

