-- ==== Sys2Proof/Laws/Framer.lean ====
section
/-! SUPPORT. What the framer's part of a cycle can do (R130 to R148), said once: what it stores, starts and pulses, and how it stands
afterwards. -/

namespace Sys2Proof.Machine

theorem ready_await {F : Framer} (h : F.fstate = .await) : rxReady F = true := by simp [rxReady, h]
theorem ready_recv {F : Framer} (h : F.fstate = .recv) : rxReady F = true := by simp [rxReady, h]
theorem ready_quar {F : Framer} (h : F.fstate = .quar) : rxReady F = true := by simp [rxReady, h]
theorem busy_xmit {F : Framer} (h : F.fstate = .xmit) : rxReady F = false := by simp [rxReady, h]

/-- The block is ready in every phase but XMIT (R22). -/
theorem ready_iff (F : Framer) : rxReady F = true ↔ F.fstate ≠ .xmit := by
  cases h : F.fstate <;> simp [rxReady, h]

@[simp] theorem accepted_ready {F : Framer} (I : Input) (h : rxReady F = true) : accepted F I = I.rx := by
  simp [accepted, h]

@[simp] theorem accepted_busy {F : Framer} (I : Input) (h : rxReady F = false) : accepted F I = none := by
  simp [accepted, h]

/-! The framer's step, by phase. -/

theorem frmStep_await_byte (P : Params) (F : Framer) (gs : GState) (I : Input) (b : Byte) (h : F.fstate = .await)
    (hb : I.rx = some b) : frmStep P F gs I = firstByte F b := by
  simp [frmStep, h, ready_await h, hb]

theorem frmStep_await_quiet (P : Params) (F : Framer) (gs : GState) (I : Input) (h : F.fstate = .await) (hb : I.rx = none) :
    frmStep P F gs I = { frm := F } := by
  simp [frmStep, h, ready_await h, hb]

theorem frmStep_recv_byte (P : Params) (F : Framer) (gs : GState) (I : Input) (b : Byte) (h : F.fstate = .recv)
    (hf : reservedField F.field = false) (hb : I.rx = some b) : frmStep P F gs I = recvByte P F b := by
  simp [frmStep, h, recvStep, hf, ready_recv h, hb]

theorem frmStep_recv_quiet (P : Params) (F : Framer) (gs : GState) (I : Input) (h : F.fstate = .recv)
    (hf : reservedField F.field = false) (hb : I.rx = none) :
    frmStep P F gs I = if I.gtick then guardTick P F else { frm := F } := by
  simp [frmStep, h, recvStep, hf, ready_recv h, hb]

theorem frmStep_quar_byte (P : Params) (F : Framer) (gs : GState) (I : Input) (b : Byte) (h : F.fstate = .quar)
    (hb : I.rx = some b) : frmStep P F gs I = { frm := { F with q := 0 }, pulses := { transportReinit := I.wedged } } := by
  simp [frmStep, h, quarStep, ready_quar h, hb]

theorem frmStep_quar_quiet (P : Params) (F : Framer) (gs : GState) (I : Input) (h : F.fstate = .quar) (hb : I.rx = none) :
    frmStep P F gs I = { frm := if I.gtick then quarantineTick P F else F, pulses := { transportReinit := I.wedged } } := by
  cases hg : I.gtick <;> simp [frmStep, h, quarStep, ready_quar h, hb, hg]

theorem frmStep_xmit (P : Params) (F : Framer) (gs : GState) (I : Input) (h : F.fstate = .xmit) :
    frmStep P F gs I = xmitWait F gs := by
  simp [frmStep, h]

/-- The framer's step in RECV with a reserved `field` (R234). -/
theorem frmStep_fatal (P : Params) (F : Framer) (gs : GState) (I : Input) (h : F.fstate = .recv)
    (hf : reservedField F.field = true) : frmStep P F gs I = fatalPath F := by
  simp [frmStep, h, recvStep, hf]

/-! RECV_BYTE, by field. -/

theorem recvByte_overflow (P : Params) (F : Framer) (b : Byte) (h : F.wr = P.fbCapacity) :
    recvByte P F b = reject .fbOverflow { F with g := 0 } none := by
  simp [recvByte, h]

theorem recvByte_plen (P : Params) (F : Framer) (b : Byte) (h : F.wr ≠ P.fbCapacity) (hf : F.field = .plen) :
    recvByte P F b = plenByte (counted F) b (some (F.wr, b)) := by
  simp [recvByte, h, hf, counted]

theorem recvByte_pcount (P : Params) (F : Framer) (b : Byte) (h : F.wr ≠ P.fbCapacity) (hf : F.field = .pcount) :
    recvByte P F b = pcountByte P (counted F) b (some (F.wr, b)) := by
  simp [recvByte, h, hf, counted]

theorem recvByte_cper (P : Params) (F : Framer) (b : Byte) (h : F.wr ≠ P.fbCapacity) (hf : F.field = .cper) :
    recvByte P F b = cperByte (counted F) b (some (F.wr, b)) := by
  simp [recvByte, h, hf, counted]

theorem recvByte_chigh (P : Params) (F : Framer) (b : Byte) (h : F.wr ≠ P.fbCapacity) (hf : F.field = .chigh) :
    recvByte P F b = chighByte (counted F) b (some (F.wr, b)) := by
  simp [recvByte, h, hf, counted]

theorem recvByte_pairs (P : Params) (F : Framer) (b : Byte) (h : F.wr ≠ P.fbCapacity) (hf : F.field = .pairs) :
    recvByte P F b = pairsByte (counted F) (some (F.wr, b)) := by
  simp [recvByte, h, hf, counted]

/-! A property of every result the framer can give, from the parts it is made of: one place for the case split of the whole unit. -/

/-- To show a property of the framer's step, show it of each way a step ends: nothing moves, a rejection, an acceptance of either
kind, the fatal path, the first byte, a byte that leaves the frame open, a tick, the end of a transmission. -/
theorem frmStep_elim (P : Params) (F : Framer) (gs : GState) (I : Input) (Q : FrmResult → Prop)
    (awaitQuiet : F.fstate = .await → I.rx = none → Q { frm := F })
    (first : ∀ b, F.fstate = .await → I.rx = some b → Q (firstByte F b))
    (fatal : F.fstate = .recv → reservedField F.field = true → Q (fatalPath F))
    (byte : ∀ b, F.fstate = .recv → reservedField F.field = false → I.rx = some b → Q (recvByte P F b))
    (guard : F.fstate = .recv → reservedField F.field = false → I.rx = none → I.gtick = true → Q (guardTick P F))
    (recvQuiet : F.fstate = .recv → reservedField F.field = false → I.rx = none → I.gtick = false → Q { frm := F })
    (quarByte : ∀ b, F.fstate = .quar → I.rx = some b → Q { frm := { F with q := 0 }, pulses := { transportReinit := I.wedged } })
    (quarTick : F.fstate = .quar → I.rx = none → I.gtick = true →
      Q { frm := quarantineTick P F, pulses := { transportReinit := I.wedged } })
    (quarQuiet : F.fstate = .quar → I.rx = none → I.gtick = false → Q { frm := F, pulses := { transportReinit := I.wedged } })
    (xmit : F.fstate = .xmit → Q (xmitWait F gs)) : Q (frmStep P F gs I) := by
  cases h : F.fstate with
  | await =>
    cases hb : I.rx with
    | none => rw [frmStep_await_quiet P F gs I h hb]; exact awaitQuiet h hb
    | some b => rw [frmStep_await_byte P F gs I b h hb]; exact first b h hb
  | recv =>
    cases hf : reservedField F.field with
    | true => rw [frmStep_fatal P F gs I h hf]; exact fatal h hf
    | false =>
      cases hb : I.rx with
      | some b => rw [frmStep_recv_byte P F gs I b h hf hb]; exact byte b h hf hb
      | none =>
        rw [frmStep_recv_quiet P F gs I h hf hb]
        cases hg : I.gtick with
        | true => exact guard h hf hb hg
        | false => exact recvQuiet h hf hb hg
  | quar =>
    cases hb : I.rx with
    | some b => rw [frmStep_quar_byte P F gs I b h hb]; exact quarByte b h hb
    | none =>
      rw [frmStep_quar_quiet P F gs I h hb]
      cases hg : I.gtick with
      | true => exact quarTick h hb hg
      | false => exact quarQuiet h hb hg
  | xmit => rw [frmStep_xmit P F gs I h]; exact xmit h

/-- To show a property of RECV_BYTE, show it of each way it ends: overflow, a reserved field, a rejection at some field, a field
left unfinished, and each field's own outcome. `F1` is the framer with the byte counted. -/
theorem recvByte_elim (P : Params) (F : Framer) (b : Byte) (Q : FrmResult → Prop)
    (reserved : reservedField F.field = true → Q (fatalPath F))
    (overflow : F.wr = P.fbCapacity → Q (reject .fbOverflow { F with g := 0 } none))
    (acceptCtrl : F.wr ≠ P.fbCapacity → F.field = .plen → b = 0x00#8 → Q (acceptCtrl (counted F) (some (F.wr, b))))
    (badPayload : F.wr ≠ P.fbCapacity → F.field = .plen → b ≠ 0x00#8 →
      Q (reject .badPayloadLen (counted F) (some (F.wr, b))))
    (more : ∀ lo, F.wr ≠ P.fbCapacity → F.field = .pcount ∨ F.field = .cper ∨ F.field = .chigh → F.vhave = false →
      Q { frm := { counted F with vhave := true, vlow := lo }, write := some (F.wr, b) })
    (overlong : F.wr ≠ P.fbCapacity → F.field = .pcount ∨ F.field = .cper ∨ F.field = .chigh → F.vhave = true →
      Q (reject .varintOverlong (counted F) (some (F.wr, b))))
    (pcount : ∀ v : V14, F.wr ≠ P.fbCapacity → F.field = .pcount → 1 ≤ v.toNat → v.toNat ≤ P.maxPulses →
      Q { frm := { counted F with vhave := false, pc := v.toNat, field := .cper }, write := some (F.wr, b) })
    (badCount : ∀ v : V14, F.wr ≠ P.fbCapacity → F.field = .pcount → ¬ (1 ≤ v.toNat ∧ v.toNat ≤ P.maxPulses) →
      Q (reject .badPulseCount { counted F with vhave := false } (some (F.wr, b))))
    (cper : ∀ v : V14, F.wr ≠ P.fbCapacity → F.field = .cper →
      Q { frm := { counted F with vhave := false, cper := v, field := .chigh }, write := some (F.wr, b) })
    (chigh : ∀ v : V14, F.wr ≠ P.fbCapacity → F.field = .chigh → v ≤ F.cper →
      Q { frm := { counted F with vhave := false, chigh := v, field := .pairs, pbase := F.wr + 1, need := 4 * F.pc },
          write := some (F.wr, b) })
    (badCarrier : ∀ v : V14, F.wr ≠ P.fbCapacity → F.field = .chigh → ¬ v ≤ F.cper →
      Q (reject .badCarrier { counted F with vhave := false } (some (F.wr, b))))
    (acceptIr : F.wr ≠ P.fbCapacity → F.field = .pairs → F.need = 1 →
      Q (acceptIr { counted F with need := F.need - 1 } (some (F.wr, b))))
    (pairs : F.wr ≠ P.fbCapacity → F.field = .pairs → F.need ≠ 1 →
      Q { frm := { counted F with need := F.need - 1 }, write := some (F.wr, b) }) : Q (recvByte P F b) := by
  by_cases h : F.wr = P.fbCapacity
  · rw [recvByte_overflow P F b h]; exact overflow h
  · cases hf : F.field with
    | plen =>
      rw [recvByte_plen P F b h hf]
      by_cases hb : b = 0x00#8
      · simpa [plenByte, hb] using acceptCtrl h hf hb
      · simpa [plenByte, hb] using badPayload h hf hb
    | pcount =>
      rw [recvByte_pcount P F b h hf]
      rcases vstep_cases F.vhave F.vlow b with ⟨v, e, _⟩ | ⟨e, hv, _⟩ | ⟨e, hv, _⟩
      · by_cases hr : 1 ≤ v.toNat ∧ v.toNat ≤ P.maxPulses
        · simpa only [pcountByte, varintByte, counted, e, if_pos hr] using pcount v h hf hr.1 hr.2
        · simpa only [pcountByte, varintByte, counted, e, if_neg hr] using badCount v h hf hr
      · simpa only [pcountByte, varintByte, counted, e] using more _ h (.inl hf) hv
      · simpa only [pcountByte, varintByte, counted, e] using overlong h (.inl hf) hv
    | cper =>
      rw [recvByte_cper P F b h hf]
      rcases vstep_cases F.vhave F.vlow b with ⟨v, e, _⟩ | ⟨e, hv, _⟩ | ⟨e, hv, _⟩
      · simpa only [cperByte, varintByte, counted, e] using cper v h hf
      · simpa only [cperByte, varintByte, counted, e] using more _ h (.inr (.inl hf)) hv
      · simpa only [cperByte, varintByte, counted, e] using overlong h (.inr (.inl hf)) hv
    | chigh =>
      rw [recvByte_chigh P F b h hf]
      rcases vstep_cases F.vhave F.vlow b with ⟨v, e, _⟩ | ⟨e, hv, _⟩ | ⟨e, hv, _⟩
      · by_cases hr : v ≤ F.cper
        · simp only [chighByte, varintByte, counted, e]
          change Q (if v ≤ F.cper then _ else _)
          rw [if_pos hr]
          exact chigh v h hf hr
        · simp only [chighByte, varintByte, counted, e]
          change Q (if v ≤ F.cper then _ else _)
          rw [if_neg hr]
          exact badCarrier v h hf hr
      · simpa only [chighByte, varintByte, counted, e] using more _ h (.inr (.inr hf)) hv
      · simpa only [chighByte, varintByte, counted, e] using overlong h (.inr (.inr hf)) hv
    | pairs =>
      rw [recvByte_pairs P F b h hf]
      by_cases hn : F.need = 1
      · simpa [pairsByte, counted, hn] using acceptIr h hf hn
      · simpa [pairsByte, counted, hn] using pairs h hf hn
    | reserved5 => simpa [recvByte, h, hf] using reserved (by simp [hf, reservedField])
    | reserved6 => simpa [recvByte, h, hf] using reserved (by simp [hf, reservedField])
    | reserved7 => simpa [recvByte, h, hf] using reserved (by simp [hf, reservedField])

/-- What the framer can store: one byte, the accepted one, at 0 in AWAIT or at `wr` in RECV (R62). -/
theorem frmStep_write (P : Params) (F : Framer) (gs : GState) (I : Input) (a : Nat) (b : Byte)
    (h : (frmStep P F gs I).write = some (a, b)) :
    I.rx = some b ∧ ((F.fstate = .await ∧ a = 0) ∨ (F.fstate = .recv ∧ a = F.wr ∧ F.wr ≠ P.fbCapacity)) := by
  revert h
  apply frmStep_elim P F gs I fun r => r.write = some (a, b) →
    I.rx = some b ∧ ((F.fstate = .await ∧ a = 0) ∨ (F.fstate = .recv ∧ a = F.wr ∧ F.wr ≠ P.fbCapacity))
  case first =>
    intro x hs hx h
    have : some (0, x) = some (a, b) := by
      rw [← h]; simp only [firstByte]; split_ifs <;> rfl
    simp at this
    exact ⟨by rw [hx, this.2], .inl ⟨hs, this.1.symm⟩⟩
  case byte =>
    intro x hs hf hx
    refine recvByte_elim P F x (fun r => r.write = some (a, b) →
        I.rx = some b ∧ ((F.fstate = .await ∧ a = 0) ∨ (F.fstate = .recv ∧ a = F.wr ∧ F.wr ≠ P.fbCapacity))) ?_ ?_ ?_ ?_ ?_ ?_ ?_ ?_ ?_ ?_ ?_ ?_ ?_ <;> intros <;> simp_all [acceptCtrl, acceptIr]
  case guard => intros; simp_all only [guardTick]; split_ifs at * <;> simp_all
  case xmit => intro hs h; cases gs <;> simp [xmitWait] at h
  all_goals intros; simp_all [fatalPath]

/-- The framer starts the generator only with the last duration byte of a frame (R141, R160). -/
theorem frmStep_start (P : Params) (F : Framer) (gs : GState) (I : Input) (st : Start)
    (h : (frmStep P F gs I).start = some st) :
    F.fstate = .recv ∧ F.field = .pairs ∧ F.need = 1 ∧ F.wr ≠ P.fbCapacity ∧
      st = { pc := F.pc, cp := F.cper, ch := F.chigh, pb := F.pbase } ∧
      ∃ b, I.rx = some b ∧ frmStep P F gs I = acceptIr { counted F with need := 0 } (some (F.wr, b)) := by
  have hr : F.fstate = .recv ∧ F.field = .pairs ∧ F.need = 1 ∧ F.wr ≠ P.fbCapacity ∧ ∃ b, I.rx = some b := by
    revert h
    apply frmStep_elim P F gs I fun r => r.start = some st →
      F.fstate = .recv ∧ F.field = .pairs ∧ F.need = 1 ∧ F.wr ≠ P.fbCapacity ∧ ∃ b, I.rx = some b
    case first => intro x hs hx h; simp only [firstByte] at h; split_ifs at h <;> simp at h
    case byte =>
      intro x hs hf hx
      refine recvByte_elim P F x (fun r => r.start = some st →
          F.fstate = .recv ∧ F.field = .pairs ∧ F.need = 1 ∧ F.wr ≠ P.fbCapacity ∧ ∃ b, I.rx = some b) ?_ ?_ ?_ ?_ ?_ ?_ ?_ ?_ ?_ ?_ ?_ ?_ ?_ <;> intros <;> simp_all [acceptCtrl, acceptIr]
    case guard => intros; simp_all only [guardTick]; split_ifs at * <;> simp_all
    case xmit => intro hs h; cases gs <;> simp [xmitWait] at h
    all_goals intros; simp_all [fatalPath]
  obtain ⟨h1, h2, h3, h4, b, hb⟩ := hr
  have e : frmStep P F gs I = acceptIr { counted F with need := 0 } (some (F.wr, b)) := by
    rw [frmStep_recv_byte P F gs I b h1 (by simp [h2, reservedField]) hb, recvByte_pairs P F b h4 h2]
    simp [pairsByte, counted, h3]
  refine ⟨h1, h2, h3, h4, ?_, b, hb, e⟩
  rw [e] at h
  simpa [acceptIr, counted] using h.symm

/-- The fatal pulse is the fatal path's alone (R234). -/
theorem frmStep_fatal_iff (P : Params) (F : Framer) (gs : GState) (I : Input) :
    (frmStep P F gs I).pulses.fatal = true ↔ F.fstate = .recv ∧ reservedField F.field = true := by
  apply frmStep_elim P F gs I fun r => r.pulses.fatal = true ↔ F.fstate = .recv ∧ reservedField F.field = true
  case first => intro x hs hx; simp only [firstByte]; split_ifs <;> simp [hs]
  case byte =>
    intro x hs hf hx
    refine recvByte_elim P F x (fun r => r.pulses.fatal = true ↔ F.fstate = .recv ∧ reservedField F.field = true) ?_ ?_ ?_ ?_ ?_ ?_ ?_ ?_ ?_ ?_ ?_ ?_ ?_ <;> intros <;> simp_all [acceptCtrl, acceptIr]
  case guard => intros; simp_all only [guardTick]; split_ifs <;> simp_all
  case xmit => intro hs; cases gs <;> simp [xmitWait, hs]
  all_goals intros; simp_all [fatalPath]

/-- What R24 says of a cycle's pulses, and that the generator's two are not the framer's. -/
abbrev framerPulses (p : Pulses) : Prop :=
  ¬ (p.frameAccepted = true ∧ p.reject = true) ∧ ¬ (p.frameAccepted = true ∧ p.irDone = true) ∧
    ¬ (p.reject = true ∧ p.irDone = true) ∧ (p.frameAccepted = false → p.frameKind = 0x00#8) ∧
    (p.reject = false → p.rejectCause = .none) ∧ p.genDone = false ∧ p.startErr = false

/-- `frame_accepted`, `reject` and `ir_done` exclude each other, and the qualified fields are 0 without their pulse (R24). -/
theorem frmStep_pulses (P : Params) (F : Framer) (gs : GState) (I : Input) : framerPulses (frmStep P F gs I).pulses := by
  apply frmStep_elim P F gs I fun r => framerPulses r.pulses
  case first => intro x hs hx; simp only [firstByte]; split_ifs <;> simp [framerPulses]
  case byte =>
    intro x hs hf hx
    refine recvByte_elim P F x (fun r => framerPulses r.pulses) ?_ ?_ ?_ ?_ ?_ ?_ ?_ ?_ ?_ ?_ ?_ ?_ ?_ <;> intros <;> simp_all [framerPulses, acceptCtrl, acceptIr]
  case guard => intros; simp only [guardTick]; split_ifs <;> simp [framerPulses]
  case xmit => intro hs; cases gs <;> simp [xmitWait, framerPulses]
  all_goals intros; simp [fatalPath, framerPulses]

end Sys2Proof.Machine
end

