-- ==== Sys2Proof/Laws/Generator.lean ====
section
/-! SUPPORT. What the generator's part of a cycle can do (R180 to R188), said once. -/

namespace Sys2Proof.Machine

/-- Inside a carrier period only the phase moves (R184). -/
theorem genStep_phase (P : Params) (m : Memory) (G : Generator) (h : G.gstate = .run) (hc : G.c.toNat + 1 < peff G) :
    genStep P m G = .ok { gen := { G with c := G.c + 1#14 } } := by
  simp [genStep, h, hc]

/-- At the end of a period the phase is cleared and the carrier tick is taken (R185). -/
theorem genStep_tick (P : Params) (m : Memory) (G : Generator) (h : G.gstate = .run) (hc : ¬ G.c.toNat + 1 < peff G) :
    genStep P m G = carrierTick P m { G with c := 0#14 } := by
  simp [genStep, h, hc]

/-- A tick with two or more periods left counts one down (R186). -/
theorem carrierTick_count (P : Params) (m : Memory) (G : Generator) (h : 2 ≤ G.rem) :
    carrierTick P m G = .ok { gen := { G with rem := G.rem - 1 } } := by
  simp [carrierTick, h]

/-- A tick that ends a segment before the last loads the next duration (R187). -/
theorem carrierTick_advance (P : Params) (m : Memory) (G : Generator) (h : G.rem ≤ 1) (hs : G.seg + 1 ≠ 2 * G.gpc)
    (hr : G.rd + 1 < P.fbCapacity) :
    carrierTick P m G = .ok { gen := { G with
      seg := G.seg + 1, rem := dur P.durationEncoding (fbByte m G.rd) (fbByte m (G.rd + 1)), rd := G.rd + 2 } } := by
  simp [carrierTick, advance, show ¬ 2 ≤ G.rem by omega, hs, readDuration_ok P m G.rd hr]

/-- A tick that ends the last segment stops the generator (R188). -/
theorem carrierTick_complete (P : Params) (m : Memory) (G : Generator) (h : G.rem ≤ 1) (hs : G.seg + 1 = 2 * G.gpc) :
    carrierTick P m G = .ok (complete G) := by
  simp [carrierTick, advance, show ¬ 2 ≤ G.rem by omega, hs]

/-- A start with a legal pulse count reads the first duration (R181). -/
theorem startGen_ok (P : Params) (m : Memory) (st : Start) (G : Generator) (h1 : 1 ≤ st.pc) (h2 : st.pc ≤ P.maxPulses)
    (hr : st.pb + 1 < P.fbCapacity) :
    startGen P m st G = .ok { gen := {
      gstate := .run, seg := 0, c := 0#14, gP := st.cp, gH := st.ch, gpc := st.pc, rd := st.pb + 2,
      rem := dur P.durationEncoding (fbByte m st.pb) (fbByte m (st.pb + 1)) } } := by
  simp [startGen, show st.pc ≠ 0 by omega, show ¬ P.maxPulses < st.pc by omega, startNormal, readDuration_ok P m st.pb hr]

/-- What the generator's step can leave: stopped and unchanged, or running with the latched registers as they were, in the same
segment or the next one, or stopped with `gen_done` behind the last segment. -/
theorem genStep_cases (P : Params) (m : Memory) (G : Generator) (r : GenResult) (h : genStep P m G = .ok r) :
    r.startErr = false ∧ r.gen.gP = G.gP ∧ r.gen.gH = G.gH ∧ r.gen.gpc = G.gpc ∧
    ((G.gstate = .idle ∧ r = { gen := G }) ∨
     (G.gstate = .run ∧ r.gen.gstate = .run ∧ r.genDone = false ∧ r.gen.seg = G.seg ∧ r.gen.rd = G.rd ∧ r.gen.rem ≤ G.rem ∧
       (r.gen.c = G.c + 1#14 ∧ G.c.toNat + 1 < peff G ∨ r.gen.c = 0#14)) ∨
     (G.gstate = .run ∧ r.gen.gstate = .run ∧ r.genDone = false ∧ r.gen.seg = G.seg + 1 ∧ r.gen.rd = G.rd + 2 ∧
       readDuration P m G.rd = .ok r.gen.rem ∧ r.gen.c = 0#14 ∧ G.seg + 1 ≠ 2 * G.gpc) ∨
     (G.gstate = .run ∧ r = complete { G with c := 0#14 } ∧ G.seg + 1 = 2 * G.gpc)) := by
  cases hs : G.gstate with
  | idle =>
    rw [genStep_idle P m G hs] at h
    injection h with h
    subst h
    simp
  | run =>
    by_cases hc : G.c.toNat + 1 < peff G
    · rw [genStep_phase P m G hs hc] at h
      injection h with h
      subst h
      simp [hs, hc]
    · rw [genStep_tick P m G hs hc] at h
      by_cases hr : 2 ≤ G.rem
      · rw [carrierTick_count P m { G with c := 0#14 } hr] at h
        injection h with h
        subst h
        simp [hs]
      · simp only [carrierTick, if_neg hr, advance] at h
        by_cases hl : G.seg + 1 = 2 * G.gpc
        · rw [if_pos hl] at h
          injection h with h
          subst h
          simp [complete, hl]
        · rw [if_neg hl] at h
          cases hd : readDuration P m G.rd with
          | error e => simp [hd] at h
          | ok d =>
            simp only [hd] at h
            injection h with h
            subst h
            simp [hs, hl]

/-- A start changes a running generator's registers to those of the start, or stops it (R181 to R183). -/
theorem startGen_cases (P : Params) (m : Memory) (st : Start) (G : Generator) (r : GenResult) (h : startGen P m st G = .ok r) :
    (st.pc = 0 ∧ r = startEmpty G) ∨ (P.maxPulses < st.pc ∧ r = startRefused G) ∨
    (1 ≤ st.pc ∧ st.pc ≤ P.maxPulses ∧ ∃ d, readDuration P m st.pb = .ok d ∧
      r = { gen := { gstate := .run, seg := 0, rem := d, c := 0#14, gP := st.cp, gH := st.ch, gpc := st.pc, rd := st.pb + 2 } }) := by
  unfold startGen at h
  split at h
  · injection h with h; exact .inl ⟨‹_›, h.symm⟩
  · split at h
    · injection h with h; exact .inr (.inl ⟨‹_›, h.symm⟩)
    · refine .inr (.inr ⟨by omega, by omega, ?_⟩)
      unfold startNormal at h
      cases hd : readDuration P m st.pb with
      | error e => simp [hd] at h
      | ok d =>
        simp only [hd] at h
        injection h with h
        exact ⟨d, rfl, h.symm⟩

end Sys2Proof.Machine
end

