-- ==== Sys2Proof/Laws/Events.lean ====
section
/-! SUPPORT. Whole cycles with the generator stopped, from the framer's part alone: a quiet one, one event that stores a byte, one
byte of a delivery. -/

namespace Sys2Proof.Machine

/-- A cycle in which the framer's part `r` stores and starts nothing. -/
theorem cycle_quiet (s : State) (I : Input) (r : FrmResult) (h0 : I.rst = false) (hi : s.gen.gstate = .idle)
    (hf : frmStep s.par s.frm s.gen.gstate I = r) (hw : r.write = none) (hs : r.start = none) (hp : r.pulses.fatal = false) :
    cycle I s = .next (cycleResult s { gen := s.gen } r s.fb { gen := s.gen }) := by
  subst hf
  exact cycle_idle_quiet I s h0 hi hw hs hp

/-- An event that offers an accepted byte which the framer stores, with the generator stopped and not started: the whole cycle. -/
theorem evByte_stores (s : State) (b : Byte) (gtick wedged : Bool) (a : Nat) (r : FrmResult) (hr : rxReady s.frm = true)
    (hi : s.gen.gstate = .idle) (ha : a < s.par.fbCapacity)
    (hf : frmStep s.par s.frm s.gen.gstate { rst := false, rx := some b, gtick := gtick, wedged := wedged } = r)
    (hw : r.write = some (a, b)) (hs : r.start = none) (hp : r.pulses.fatal = false) :
    ∃ t, exec (.evByte b gtick wedged) s = .next t ∧ restKept s t ∧ fbByte t.fb a = b ∧ bytesKept s t [a] ∧ t.frm = r.frm ∧
      pulsesSince s t [{ r.pulses with genDone := false, startErr := false }] := by
  refine ⟨cycleResult s { gen := s.gen } r (s.fb.write a b) { gen := s.gen }, ?_, ⟨rfl, rfl, rfl⟩, by simp, ?_, rfl, rfl⟩
  · simp only [exec, execEvByte, eventCycle_ready _ _ hr]
    subst hf
    exact cycle_idle_store _ _ a b rfl hi hw ha hs hp
  · intro x hx
    exact fbByte_write_other _ _ _ _ (by simpa using hx)

/-- The first byte of a delivery, where the framer's part `r` stores it and starts nothing. -/
theorem deliver_stores (s : State) (b : Byte) (bs : List Byte) (a : Nat) (r : FrmResult) (hr : rxReady s.frm = true)
    (hi : s.gen.gstate = .idle) (ha : a < s.par.fbCapacity) (hf : frmStep s.par s.frm s.gen.gstate (offer b) = r)
    (hw : r.write = some (a, b)) (hs : r.start = none) (hp : r.pulses.fatal = false) :
    deliver (b :: bs) s = deliver bs (cycleResult s { gen := s.gen } r (s.fb.write a b) { gen := s.gen }) := by
  subst hf
  rw [deliver_ready b bs s hr, cycle_idle_store _ _ a b rfl hi hw ha hs hp]
  rfl

end Sys2Proof.Machine
end

