-- ==== Sys2Proof/Laws/PerInstr.lean ====
section
/-! SUPPORT. One family of statements about every operation as syntax: how many bytes its encoding has (30_encoding.md R80 to R84,
R93), one lemma per constructor. -/

namespace Sys2Proof.Laws.ByteCount

open Sys2Proof

/-- The bytes of a VARINT field: one or two (R83). -/
def ofVarint : Varint → Nat
  | .one _ => 1
  | .two _ _ => 2

/-- The bytes the table and R80 to R84 give an operation; an event is no byte of the stream. -/
def expected : Instr → Nat
  | .keepalive => 2
  | .resetRequest => 2
  | .ctrlBadPayload _ _ => 2
  | .irPattern n cp ch ds => 1 + ofVarint n + ofVarint cp + ofVarint ch + 2 * ds.length
  | .unrecognizedKind _ => 1
  | .varint1 _ => 1
  | .varint2 _ _ => 2
  | .varintOverlong _ _ => 2
  | .durationSplit7 _ _ _ _ => 2
  | .durationLe16 _ _ => 2
  | .evRst _ _ _ => 0
  | .evByte _ _ _ => 0
  | .evGtick _ => 0
  | .evWedged _ _ => 0

/-- The encoder gives an operation that many bytes. -/
def Statement (i : Instr) : Prop := (encodeBytes i).length = expected i

theorem varintBytes_length (v : Varint) : (Machine.varintBytes v).length = ofVarint v := by cases v <;> rfl

theorem durationBytes_length (ds : List (Byte × Byte)) : (durationBytes ds).length = 2 * ds.length := by
  induction ds with
  | nil => rfl
  | cons d ds ih => obtain ⟨b0, b1⟩ := d; simp [durationBytes, ih]; omega

theorem keepalive : Statement .keepalive := rfl
theorem resetRequest : Statement .resetRequest := rfl
theorem ctrlBadPayload (k : Bool) (p : Byte) : Statement (.ctrlBadPayload k p) := rfl
theorem irPattern (n cp ch : Varint) (ds : List (Byte × Byte)) : Statement (.irPattern n cp ch ds) := by
  simp only [Statement, encodeBytes, encode, expected, List.length_cons, List.length_append, varintBytes_length,
    durationBytes_length]
  omega
theorem unrecognizedKind (k : Byte) : Statement (.unrecognizedKind k) := rfl
theorem varint1 (v : Group) : Statement (.varint1 v) := rfl
theorem varint2 (l h : Group) : Statement (.varint2 l h) := rfl
theorem varintOverlong (l x : Group) : Statement (.varintOverlong l x) := rfl
theorem durationSplit7 (x0 : Bool) (l : Group) (x1 : Bool) (h : Group) : Statement (.durationSplit7 x0 l x1 h) := rfl
theorem durationLe16 (l h : Byte) : Statement (.durationLe16 l h) := rfl
theorem evRst (acc : Option Byte) (gtick wedged : Bool) : Statement (.evRst acc gtick wedged) := rfl
theorem evByte (b : Byte) (gtick wedged : Bool) : Statement (.evByte b gtick wedged) := rfl
theorem evGtick (wedged : Bool) : Statement (.evGtick wedged) := rfl
theorem evWedged (acc : Option Byte) (gtick : Bool) : Statement (.evWedged acc gtick) := rfl

end Sys2Proof.Laws.ByteCount
end

