-- ==== Sys2Proof/Tests/Slice0.lean ====
section
/-! SUPPORT. Tests. Expected results are the vectors of 95_test_vectors.md (named V<n>, P<n>) or words written out from 30_encoding.md. The
theorems wit_<Obligation> show states that meet a statement's hypotheses. -/

namespace Sys2Proof.Tests

open Sys2Proof Sys2Proof.Machine

/-- The parameters of the vectors (95_test_vectors.md section 0). -/
def vecPar : Params := { maxPulses := 17, fbCapacity := 75, tInterbyte := 3, tClear := 2, durationEncoding := .split7 }

/-- The reset registers on the vectors' instance. -/
def base : State := { par := vecPar, frm := Framer.reset, gen := Generator.reset, fb := [], script := [], trace := [] }

/-- The same with another capacity. -/
def baseCap (n : Nat) : State := { base with par := { vecPar with fbCapacity := n } }

/-- The framer inside an IR frame with one pulse, at a field and a cursor. -/
def atField (f : Field) (wr : Nat) : State :=
  { base with frm := { Framer.reset with
      fstate := .recv, field := f, kind := 0x01#8, pc := 1, cper := 26#14, chigh := 2#14, pbase := 4, need := 8 - wr, wr := wr } }

/-- After the kind byte of a control frame. -/
def atPlen : State := { base with frm := { Framer.reset with fstate := .recv, field := .plen, kind := 0x7F#8, wr := 1 } }

/-- In quarantine after BAD_KIND (V31a). -/
def inQuar : State :=
  { base with
    frm := { Framer.reset with fstate := .quar, kind := 0x05#8, wr := 1, rejCause := .badKind }
    fb := [(0, 0x05#8)] }

/-- One pulse of durations 2 and 1, period `p`, high time `h`, just started (V30d with `p = h = 1`). -/
def started (p h : V14) : State :=
  { base with
    frm := { Framer.reset with
      fstate := .xmit, field := .pairs, kind := 0x01#8, pc := 1, cper := p, chigh := h, pbase := 4, wr := 8 }
    gen := { gstate := .run, seg := 0, rem := 2, c := 0#14, gP := p, gH := h, gpc := 1, rd := 6 }
    fb := [(0, 0x01#8), (1, 0x01#8), (2, 0x01#8), (3, 0x01#8), (4, 0x02#8), (5, 0x00#8), (6, 0x01#8), (7, 0x00#8)] }

/-- The generator of `started` later on: segment, periods left, phase. -/
def running (p h : V14) (seg rem : Nat) (c : V14) : State :=
  { started p h with gen := { (started p h).gen with seg := seg, rem := rem, c := c, rd := 4 + 2 * (seg + 1) } }

/-- `started` with the generator stopped: the cycle of XMIT_WAIT. -/
def ended : State := { started 1#14 1#14 with gen := { (started 1#14 1#14).gen with gstate := .idle, seg := 2, rem := 0, rd := 8 } }

/-- Whether an outcome is a next state with a property. -/
def look (o : Host.Outcome State Fault Refusal) (p : State → Bool) : Bool :=
  match o with
  | .next t => p t
  | .fault _ => false
  | .refused _ => false

/-- Whether an outcome is a fault. -/
def stops (o : Host.Outcome State Fault Refusal) : Bool :=
  match o with
  | .next _ => false
  | .fault _ => true
  | .refused _ => false

/-- The pulses of the last cycle. -/
def lastPulses (t : State) : Option Pulses := t.trace.head?.map Output.pulses

/-! The WellFormed checks, an ill-formed term each. -/

theorem test_wf_payload_zero_refused : Instr.wf vecPar (.ctrlBadPayload true 0x00#8) = false := by decide
theorem test_wf_pulse_count_zero_refused : Instr.wf vecPar (.irPattern (.one 0#7) (.one 1#7) (.one 1#7) []) = false := by decide
theorem test_wf_pulse_count_18_refused :
    Instr.wf vecPar (.irPattern (.one 18#7) (.one 1#7) (.one 1#7) (List.replicate 36 (0x01#8, 0x00#8))) = false := by decide
theorem test_wf_carrier_high_above_period_refused :
    Instr.wf vecPar (.irPattern (.one 1#7) (.one 26#7) (.one 27#7) [(0x01#8, 0x00#8), (0x01#8, 0x00#8)]) = false := by decide
theorem test_wf_missing_duration_refused :
    Instr.wf vecPar (.irPattern (.one 1#7) (.one 26#7) (.one 26#7) [(0x01#8, 0x00#8)]) = false := by decide
theorem test_wf_known_kinds_refused :
    Instr.wf vecPar (.unrecognizedKind 0x01#8) = false ∧ Instr.wf vecPar (.unrecognizedKind 0x7E#8) = false ∧
      Instr.wf vecPar (.unrecognizedKind 0x7F#8) = false := by decide
theorem test_wf_other_encoding_refused :
    Instr.wf vecPar (.durationLe16 0x05#8 0x00#8) = false ∧
      Instr.wf { vecPar with durationEncoding := .le16 } (.durationSplit7 false 5#7 false 0#7) = false := by decide
theorem test_wf_wedged_with_other_event_refused :
    Instr.wf vecPar (.evWedged (some 0x7F#8) false) = false ∧ Instr.wf vecPar (.evWedged none true) = false := by decide

/-! Decoding, from words written out. -/

/-- R81. -/
theorem test_decode_keepalive : decodeMessage [0b01111111#8, 0b00000000#8] = .ok (.keepalive, []) := by decide
/-- R81. -/
theorem test_decode_reset_request : decodeMessage [0b01111110#8, 0b00000000#8] = .ok (.resetRequest, []) := by decide
/-- V34, V35. -/
theorem test_decode_bad_payload :
    decodeMessage [0b01111111#8, 0b00000001#8] = .ok (.ctrlBadPayload true 0x01#8, []) ∧
      decodeMessage [0b01111110#8, 0b10000000#8] = .ok (.ctrlBadPayload false 0x80#8, []) := by decide
/-- V30e: `01 01 AC 02 96 01 05 00 02 00` is one pulse, period 300, high time 150, durations 5 and 2; one byte more is left over. -/
theorem test_decode_ir_pattern :
    decodeMessage [0x01#8, 0x01#8, 0xAC#8, 0x02#8, 0x96#8, 0x01#8, 0x05#8, 0x00#8, 0x02#8, 0x00#8, 0x7F#8] =
      .ok (.irPattern (.one 1#7) (.two 0x2C#7 0x02#7) (.two 0x16#7 0x01#7) [(0x05#8, 0x00#8), (0x02#8, 0x00#8)], [0x7F#8]) ∧
    varintValue (.two 0x2C#7 0x02#7) = 300#14 ∧ varintValue (.two 0x16#7 0x01#7) = 150#14 := by decide
/-- The same from the notation of R94. -/
theorem test_notation_of_ir_pattern :
    (irPatternOf .split7 300 150 [(5, 2)]).map encodeBytes =
      some [0x01#8, 0x01#8, 0xAC#8, 0x02#8, 0x96#8, 0x01#8, 0x05#8, 0x00#8, 0x02#8, 0x00#8] := by decide
/-- R87: neighbours of the valid kinds, and `0x80` with no second byte awaited. -/
theorem test_decode_unrecognized_kind :
    decodeMessage [0x02#8] = .ok (.unrecognizedKind 0x02#8, []) ∧ decodeMessage [0x7D#8] = .ok (.unrecognizedKind 0x7D#8, []) ∧
      decodeMessage [0x80#8, 0x01#8] = .ok (.unrecognizedKind 0x80#8, [0x01#8]) := by decide
/-- R83, V1 to V4g. -/
theorem test_decode_varints :
    decodeVarintForm [0b01111111#8] = .ok (.varint1 0b1111111#7, []) ∧
      decodeVarintForm [0b10101100#8, 0b00000010#8] = .ok (.varint2 0b0101100#7 0b0000010#7, []) ∧
      decodeVarintForm [0b10000001#8, 0b10000000#8] = .ok (.varintOverlong 0b0000001#7 0b0000000#7, []) ∧
      decodeVarintForm [0b10000001#8] = .error .endOfStream := by decide
/-- R84: bit 7 of each byte is kept beside its group. -/
theorem test_decode_durations :
    decodeDurationForm .split7 [0b10000101#8, 0b00000010#8] = .ok (.durationSplit7 true 0b0000101#7 false 0b0000010#7, []) ∧
      decodeDurationForm .le16 [0b00101100#8, 0b00000001#8] = .ok (.durationLe16 0b00101100#8 0b00000001#8, []) := by decide
/-- The table's four event bits (rst, acc, gtick, wedged): `1000`, `0110`, `0011`, `0001`, `0000`. -/
theorem test_decode_events :
    decodeInput true { rst := true, rx := none, gtick := false, wedged := false } = some (.evRst none false false) ∧
      decodeInput true { rst := false, rx := some 0x7F#8, gtick := true, wedged := false } = some (.evByte 0x7F#8 true false) ∧
      decodeInput true { rst := false, rx := none, gtick := true, wedged := true } = some (.evGtick true) ∧
      decodeInput true { rst := false, rx := none, gtick := false, wedged := true } = some (.evWedged none false) ∧
      decodeInput true Input.idle = none := by decide
/-- The rows of the opcode table by their words. -/
theorem test_table_words :
    decodeTableWord 16 0x7F00 = some .keepalive ∧ decodeTableWord 16 0x7E00 = some .resetRequest ∧
      decodeTableWord 16 0x7F01 = some (.ctrlBadPayload true 0x01#8) ∧
      decodeTableWord 8 0x01 = some (.irPattern (.one 0#7) (.one 0#7) (.one 0#7) []) ∧
      decodeTableWord 8 0x05 = some (.varint1 5#7) ∧ decodeTableWord 16 0x8100 = some (.varint2 1#7 0#7) ∧
      decodeTableWord 16 0x8180 = some (.varintOverlong 1#7 0#7) := by decide
/-- A table word placed after reset is what the next step runs. -/
theorem test_step_runs_the_placed_word :
    look (step (base.withFetchWord 16 0x7F00)) (fun t => lastPulses t == some (acceptPulses 0x7F#8)) = true := by decide

/-! The operand forms. -/

/-- V4b to V4g. -/
theorem test_vstep_second_byte :
    vstep true 0x2C#7 0x02#8 = .done 300#14 ∧ vstep true 0x7F#7 0x7F#8 = .done 16383#14 ∧
      vstep true 0x05#7 0x00#8 = .done 5#14 ∧ vstep true 0x05#7 0x80#8 = .overlong := by decide
/-- V7, V8, V12, V14, V14a. -/
theorem test_venc :
    venc 127 = some [0x7F#8] ∧ venc 128 = some [0x80#8, 0x01#8] ∧ venc 300 = some [0xAC#8, 0x02#8] ∧
      venc 16383 = some [0xFF#8, 0x7F#8] ∧ venc 16384 = none := by decide
/-- V15, V21 to V25. -/
theorem test_vdecode :
    vdecode [] = .endOfStream ∧ vdecode [0xFF#8, 0x7F#8, 0x05#8] = .ok 16383#14 2 ∧ vdecode [0x05#8, 0x80#8] = .ok 5#14 1 ∧
      vdecode [0x80#8] = .endOfStream ∧ vdecode [0x80#8, 0x00#8] = .ok 0#14 2 ∧ vdecode [0x81#8, 0x80#8] = .overlong := by decide
/-- V29b, V29d, V29e. -/
theorem test_dur :
    dur .split7 0x2C#8 0x02#8 = 300 ∧ dur .le16 0x2C#8 0x02#8 = 556 ∧ dur .split7 0x85#8 0x00#8 = 5 ∧
      dur .le16 0x85#8 0x00#8 = 133 ∧ dur .split7 0xFF#8 0xFF#8 = 16383 ∧ dur .le16 0xFF#8 0xFF#8 = 65535 := by decide

/-! The operations. -/

/-- V30a. -/
theorem test_keepalive_accepted :
    look (exec .keepalive base) (fun t => lastPulses t == some (acceptPulses 0x7F#8) && t.frm.fstate == .await && t.frm.wr == 2
      && t.fb == [(0, 0x7F#8), (1, 0x00#8)] && statusWord t.frm t.gen == 0x0000#16) = true := by decide
/-- V62: the keepalive needs two bytes. -/
theorem test_keepalive_overflows_one_byte :
    look (exec .keepalive (baseCap 1)) (fun t => lastPulses t == some (rejectPulses .fbOverflow)) = true := by decide
/-- V30b. -/
theorem test_reset_request_accepted :
    look (exec .resetRequest base) (fun t => lastPulses t == some (acceptPulses 0x7E#8) && t.frm.kind == 0x7E#8) = true := by decide
/-- V34. -/
theorem test_bad_payload_rejected :
    look (exec (.ctrlBadPayload true 0x01#8) base) (fun t => lastPulses t == some (rejectPulses .badPayloadLen)
      && statusWord t.frm t.gen == 0x0202#16) = true := by decide
/-- V63: overflow comes before the payload check. -/
theorem test_bad_payload_overflow_first :
    look (exec (.ctrlBadPayload true 0x05#8) (baseCap 1)) (fun t => lastPulses t == some (rejectPulses .fbOverflow)) = true := by
  decide
/-- V30d. -/
theorem test_ir_pattern_starts :
    look (exec (.irPattern (.one 1#7) (.one 1#7) (.one 1#7) [(0x02#8, 0x00#8), (0x01#8, 0x00#8)]) base)
      (fun t => t.frm.fstate == .xmit && t.frm.pbase == 4 && t.gen == (started 1#14 1#14).gen
        && lastPulses t == some (acceptPulses 0x01#8)) = true := by decide
/-- V36. -/
theorem test_ir_pattern_of_no_pulse_rejected :
    look (exec (.irPattern (.one 0#7) (.one 1#7) (.one 1#7) []) base) (fun t => t.frm.rejCause == .badPulseCount
      && t.frm.fstate == .quar && t.fb == [(0, 0x01#8), (1, 0x00#8)]) = true := by decide
/-- V31a. -/
theorem test_unrecognized_kind_rejected :
    look (exec (.unrecognizedKind 0x05#8) base) (fun t => lastPulses t == some (rejectPulses .badKind)
      && t.frm == inQuar.frm && statusWord t.frm t.gen == 0x0102#16) = true := by decide
/-- V37. -/
theorem test_varint1_pulse_count_18 :
    look (exec (.varint1 18#7) (atField .pcount 1)) (fun t => lastPulses t == some (rejectPulses .badPulseCount)) = true := by decide
/-- V47: the high time may be the period. -/
theorem test_varint1_carrier_high_boundary :
    look (exec (.varint1 26#7) (atField .chigh 3)) (fun t => t.frm.field == .pairs && t.frm.pbase == 4 && t.frm.need == 4) = true := by
  decide
/-- V30f: the non-canonical two-byte 1. -/
theorem test_varint2_non_canonical :
    look (exec (.varint2 1#7 0#7) (atField .pcount 1)) (fun t => t.frm.pc == 1 && t.frm.field == .cper && t.frm.wr == 3
      && !t.frm.vhave) = true := by decide
/-- V30e: 300. -/
theorem test_varint2_carrier_period :
    look (exec (.varint2 0x2C#7 0x02#7) (atField .cper 2)) (fun t => t.frm.cper == 300#14 && t.frm.field == .chigh) = true := by decide
/-- V41. -/
theorem test_varint_overlong_rejected :
    look (exec (.varintOverlong 1#7 0#7) (atField .chigh 3)) (fun t => lastPulses t == some (rejectPulses .varintOverlong)
      && t.frm.fstate == .quar) = true := by decide
/-- V29d: stored undecoded, bit 7 and all. -/
theorem test_duration_split7_stored :
    look (exec (.durationSplit7 true 5#7 false 0#7) (atField .pairs 4)) (fun t => t.fb == [(4, 0x85#8), (5, 0x00#8)]
      && t.frm.need == 2) = true := by decide
/-- V88: under LE16 the stored pair `2C 01` starts as 300. -/
theorem test_duration_le16_read :
    look (exec (.durationLe16 0x00#8 0x00#8) { atField .pairs 6 with
        par := { vecPar with durationEncoding := .le16 }, fb := [(4, 0x2C#8), (5, 0x01#8)] })
      (fun t => t.gen.rem == 300 && t.gen.gstate == .run && t.frm.fstate == .xmit) = true := by decide
/-- V72: reset wins over a byte. -/
theorem test_rst_wins :
    look (exec (.evRst (some 0x7F#8) false false) inQuar) (fun t => t.frm == Framer.reset && t.fb == inQuar.fb
      && lastPulses t == some {}) = true := by decide
/-- V103: reset in XMIT stops the generator. -/
theorem test_rst_stops_generation :
    look (exec (.evRst none false false) (started 4#14 2#14)) (fun t => t.gen == Generator.reset && t.frm.fstate == .await) = true := by
  decide
/-- V70: the byte wins over the gtick that would end the frame. -/
theorem test_byte_beats_gtick :
    look (exec (.evByte 0x00#8 true false) { atPlen with frm := { atPlen.frm with g := 2 } })
      (fun t => lastPulses t == some (acceptPulses 0x7F#8)) = true := by decide
/-- V107: a byte offered in XMIT waits. -/
theorem test_byte_waits_in_xmit :
    look (exec (.evByte 0x7F#8 false false) (started 4#14 2#14)) (fun t => t.script == [.bytes 0x7F#8 []] && t.frm.fstate == .xmit
      && t.gen.c == 1#14) = true := by decide
/-- V45. -/
theorem test_gtick_times_out :
    look (exec (.evGtick false) { atPlen with frm := { atPlen.frm with g := 2 } })
      (fun t => lastPulses t == some (rejectPulses .timeout) && t.frm.fstate == .quar && t.frm.g == 0) = true := by decide
/-- V50. -/
theorem test_gtick_ends_quarantine :
    look (exec (.evGtick false) { inQuar with frm := { inQuar.frm with q := 1 } })
      (fun t => t.frm.fstate == .await && t.frm.q == 0 && t.frm.rejCause == .badKind) = true := by decide
/-- V54. -/
theorem test_wedged_in_quarantine :
    look (exec (.evWedged none false) inQuar) (fun t => lastPulses t == some { transportReinit := true } && t.frm == inQuar.frm) = true := by
  decide
/-- V58. -/
theorem test_wedged_in_recv :
    look (exec (.evWedged none false) atPlen) (fun t => lastPulses t == some {} && t.frm == atPlen.frm) = true := by decide
/-- V80: the last cycle of the last segment. -/
theorem test_generation_completes :
    look (cycle Input.idle (running 1#14 1#14 1 1 0#14)) (fun t => lastPulses t == some { genDone := true } && t.gen.gstate == .idle
      && t.gen.seg == 2 && hasEnded t.gen) = true := by decide
/-- V30d: `ir_done` one cycle later. -/
theorem test_ir_done :
    look (cycle Input.idle ended) (fun t => lastPulses t == some { irDone := true } && t.frm.fstate == .await) = true := by decide
/-- V106. -/
theorem test_reserved_field_stops :
    stops (cycle (offer 0x7F#8) (atField .reserved5 3)) = true := by decide

/-! Witnesses: the hypotheses of each statement, met together; each clause at the edge of its range. -/

theorem wit_WellFormedOperationsRoundTrip :
    Instr.wf vecPar (.ctrlBadPayload false 0x80#8) = true ∧
    Instr.wf vecPar (.irPattern (.one 17#7) (.two 0x7F#7 0x7F#7) (.two 0x7F#7 0x7F#7) (List.replicate 34 (0xFF#8, 0xFF#8))) = true ∧
    Instr.wf vecPar (.unrecognizedKind 0x00#8) = true ∧ Instr.wf vecPar (.durationSplit7 true 0x7F#7 true 0x7F#7) = true ∧
    Instr.wf { vecPar with durationEncoding := .le16 } (.durationLe16 0xFF#8 0xFF#8) = true ∧
    Instr.wf vecPar (.evWedged none false) = true := by decide
theorem wit_DecodingDropsNoBit :
    decodeBytes .message [0x7F#8, 0x80#8, 0x01#8] = .ok (.ctrlBadPayload true 0x80#8, [0x01#8]) ∧
    decodeBytes .varint [0xFF#8, 0xFF#8] = .ok (.varintOverlong 0x7F#7 0x7F#7, []) ∧
    decodeBytes (.duration .split7) [0xFF#8, 0x80#8] = .ok (.durationSplit7 true 0x7F#7 true 0#7, []) := by decide
theorem wit_VarintEncoderBytes :
    venc 0 = some [0x00#8] ∧ venc 127 = some [0x7F#8] ∧ venc 128 = some [0x80#8, 0x01#8] ∧ venc 16383 = some [0xFF#8, 0x7F#8] ∧
      venc 16384 = none := by decide
theorem wit_VarintRoundTrip : (16383 : Nat) ≤ 16383 ∧ vdecode [0xFF#8, 0x7F#8] = .ok (BitVec.ofNat 14 16383) 2 := by decide
theorem wit_DurationRoundTrip :
    durenc .split7 16383 = some (0x7F#8, 0x7F#8) ∧ durenc .split7 16384 = none ∧ durenc .le16 65535 = some (0xFF#8, 0xFF#8) ∧
      durenc .le16 65536 = none := by decide
theorem wit_VarintStepValues :
    (0x7F#8 : Byte).toNat < 128 ∧ 128 ≤ (0x80#8 : Byte).toNat ∧ vstep false 0#7 0x7F#8 = .done 127#14 ∧
      vstep false 0#7 0x80#8 = .more 0#7 ∧ vstep true 0x7F#7 0x7F#8 = .done 16383#14 ∧ vstep true 0#7 0x80#8 = .overlong := by decide
theorem wit_SequenceDecodeBounds : vdecode [0x7F#8] = .ok 127#14 1 ∧ vdecode [0xFF#8, 0x7F#8, 0x05#8] = .ok 16383#14 2 := by decide

theorem wit_StepRunsTheDecodedOperation :
    (rxReady base.frm = true ∧ decodeItem (place base.par base.frm) true (.bytes 0x7F#8 [0x00#8, 0x05#8]) = some (.keepalive, [0x05#8])) ∧
    (decodeItem (place (started 1#14 1#14).par (started 1#14 1#14).frm) (rxReady (started 1#14 1#14).frm)
      (.cycle { rst := false, rx := some 0x7F#8, gtick := true, wedged := false }) = some (.evGtick false, [])) ∧
    (Instr.wf base.par (.ctrlBadPayload true 0x01#8) = true ∧ place base.par base.frm = placeOf (.ctrlBadPayload true 0x01#8)) ∧
    (rxReady (atField .cper 2).frm = true ∧ place vecPar (atField .cper 2).frm = placeOf (.varint2 0x2C#7 0x02#7)) ∧
    (Instr.wf vecPar (.durationSplit7 false 5#7 false 0#7) = true ∧
      place vecPar (atField .pairs 4).frm = placeOf (.durationSplit7 false 5#7 false 0#7)) := by decide
theorem wit_StepOnARecordIsOneCycle :
    ({ base with script := [.cycle Input.idle] } : State).script = .cycle Input.idle :: [] ∧
    blockStep base.par base.toBlock Input.idle = .ok (base.toBlock, outputOf base.toBlock {}) ∧
    ∃ e, blockStep vecPar (atField .reserved5 3).toBlock Input.idle = .error e :=
  ⟨rfl, rfl, _, rfl⟩

theorem wit_FirstByteOfAFrame : base.frm.fstate = .await ∧ base.gen.gstate = .idle ∧ 1 ≤ (baseCap 1).par.fbCapacity := by decide
theorem wit_PayloadLengthByte :
    atPlen.frm.fstate = .recv ∧ atPlen.frm.field = .plen ∧ atPlen.gen.gstate = .idle ∧ atPlen.frm.wr < atPlen.par.fbCapacity := by
  decide
theorem wit_OverflowRejects :
    (atField .pairs 75).frm.fstate = .recv ∧ reservedField (atField .pairs 75).frm.field = false ∧
      (atField .pairs 75).gen.gstate = .idle ∧ (atField .pairs 75).frm.wr = (atField .pairs 75).par.fbCapacity := by decide
theorem wit_PulseCountByte :
    (atField .pcount 1).frm.fstate = .recv ∧ (atField .pcount 1).frm.field = .pcount ∧ (atField .pcount 1).gen.gstate = .idle ∧
      (atField .pcount 1).frm.wr < (atField .pcount 1).par.fbCapacity ∧ vstep false 0#7 0x11#8 = .done 17#14 ∧
      vstep false 0#7 0x12#8 = .done 18#14 ∧ vstep false 0#7 0x80#8 = .more 0#7 := by decide
theorem wit_CarrierPeriodByte :
    (atField .cper 2).frm.fstate = .recv ∧ (atField .cper 2).frm.field = .cper ∧ (atField .cper 2).gen.gstate = .idle ∧
      (atField .cper 2).frm.wr < (atField .cper 2).par.fbCapacity := by decide
theorem wit_CarrierHighByte :
    (atField .chigh 3).frm.fstate = .recv ∧ (atField .chigh 3).frm.field = .chigh ∧ (atField .chigh 3).gen.gstate = .idle ∧
      (atField .chigh 3).frm.wr < (atField .chigh 3).par.fbCapacity ∧ (26#14 : V14).toNat ≤ (atField .chigh 3).frm.cper.toNat ∧
      ¬ (27#14 : V14).toNat ≤ (atField .chigh 3).frm.cper.toNat := by decide
theorem wit_DurationByteStored :
    (atField .pairs 6).frm.fstate = .recv ∧ (atField .pairs 6).frm.field = .pairs ∧ (atField .pairs 6).gen.gstate = .idle ∧
      (atField .pairs 6).frm.wr < (atField .pairs 6).par.fbCapacity ∧ 2 ≤ (atField .pairs 6).frm.need := by decide
theorem wit_LastDurationByteStartsTheGenerator :
    (atField .pairs 7).frm.fstate = .recv ∧ (atField .pairs 7).frm.field = .pairs ∧ (atField .pairs 7).gen.gstate = .idle ∧
      (atField .pairs 7).frm.wr < (atField .pairs 7).par.fbCapacity ∧ (atField .pairs 7).frm.need = 1 ∧
      1 ≤ (atField .pairs 7).frm.pc ∧ (atField .pairs 7).frm.pc ≤ (atField .pairs 7).par.maxPulses ∧
      (atField .pairs 7).frm.pbase + 1 < (atField .pairs 7).par.fbCapacity := by decide
theorem wit_QuarantineDiscardsBytes : inQuar.frm.fstate = .quar ∧ inQuar.gen.gstate = .idle := by decide

theorem inv_base : Inv base :=
  ⟨by decide, ⟨by decide, by decide, by decide, by decide, by decide, by decide, by decide, by decide, by decide⟩, by decide, by decide,
    by decide, by decide⟩
theorem inv_atPlen : Inv atPlen :=
  ⟨by decide, ⟨by decide, by decide, by decide, by decide, by decide, by decide, by decide, by decide, by decide⟩, by decide, by decide,
    by decide, by decide⟩
theorem inv_inQuar : Inv inQuar :=
  ⟨by decide, ⟨by decide, by decide, by decide, by decide, by decide, by decide, by decide, by decide, by decide⟩, by decide, by decide,
    by decide, by decide⟩
theorem inv_lastByte : Inv (atField .pairs 7) :=
  ⟨by decide, ⟨by decide, by decide, by decide, by decide, by decide, by decide, by decide, by decide, by decide⟩, by decide, by decide,
    by decide, by decide⟩
theorem inv_started : Inv (started 4#14 2#14) :=
  ⟨by decide, ⟨by decide, by decide, by decide, by decide, by decide, by decide, by decide, by decide, by decide⟩, by decide, by decide,
    by decide, by decide⟩

theorem wit_BytesWaitDuringTransmission :
    Inv (started 4#14 2#14) ∧ (started 4#14 2#14).frm.fstate = .xmit ∧ encode .keepalive = .bytes 0x7F#8 [0x00#8] :=
  ⟨inv_started, rfl, rfl⟩
theorem wit_GuardTick :
    (∀ g, g = 1 ∨ g = 2 → ({ atPlen with frm := { atPlen.frm with g := g } } : State).frm.fstate = .recv) ∧
      reservedField atPlen.frm.field = false ∧ atPlen.gen.gstate = .idle ∧ ¬ 1 + 1 ≥ atPlen.par.tInterbyte ∧
      2 + 1 ≥ atPlen.par.tInterbyte := by
  refine ⟨fun _ _ => rfl, ?_⟩
  decide
theorem wit_QuarantineTick :
    inQuar.frm.fstate = .quar ∧ inQuar.gen.gstate = .idle ∧ ¬ 0 + 1 ≥ inQuar.par.tClear ∧ 1 + 1 ≥ inQuar.par.tClear := by decide
theorem wit_IgnoredTicksAndWedges :
    (Inv (started 4#14 2#14) ∧ (started 4#14 2#14).frm.fstate = .xmit) ∧ (Inv atPlen ∧ atPlen.frm.fstate = .recv) :=
  ⟨⟨inv_started, rfl⟩, inv_atPlen, rfl⟩
theorem wit_WedgedInQuarantine :
    inQuar.frm.fstate = .quar ∧ inQuar.gen.gstate = .idle ∧ inQuar.frm.q + 1 < inQuar.par.tClear ∧ inQuar.par.tClear ≤ 1 + 1 := by
  decide

theorem wit_ControlFramesAccepted :
    base.frm.fstate = .await ∧ base.gen.gstate = .idle ∧ 2 ≤ (baseCap 2).par.fbCapacity ∧ (baseCap 1).par.fbCapacity = 1 := by decide
theorem wit_BadPayloadRejected :
    (0x01#8 : Byte) ≠ 0x00#8 ∧ base.frm.fstate = .await ∧ base.gen.gstate = .idle ∧ 2 ≤ (baseCap 2).par.fbCapacity := by decide
theorem wit_UnrecognizedKindRejected :
    (0x02#8 : Byte) ≠ 0x01#8 ∧ (0x02#8 : Byte) ≠ 0x7E#8 ∧ (0x02#8 : Byte) ≠ 0x7F#8 ∧ base.frm.fstate = .await ∧
      base.gen.gstate = .idle ∧ 1 ≤ (baseCap 1).par.fbCapacity := by decide
/-- V67: the longest well-formed frame, 75 bytes. -/
theorem wit_IrPatternAccepted :
    Instr.wf base.par (.irPattern (.two 17#7 0#7) (.two 1#7 0#7) (.two 1#7 0#7) (List.replicate 34 (0x00#8, 0x00#8))) = true ∧
      base.frm.fstate = .await ∧ base.gen.gstate = .idle ∧
      (encodeBytes (.irPattern (.two 17#7 0#7) (.two 1#7 0#7) (.two 1#7 0#7) (List.replicate 34 (0x00#8, 0x00#8)))).length
        ≤ base.par.fbCapacity := by decide
theorem wit_IrPatternIllegalHeaderRejected :
    base.frm.fstate = .await ∧ base.gen.gstate = .idle ∧
      (¬ (1 ≤ (varintValue (.one 18#7)).toNat ∧ (varintValue (.one 18#7)).toNat ≤ base.par.maxPulses) ∧
        1 + (varintBytes (.one 18#7)).length ≤ (baseCap 2).par.fbCapacity) ∧
      (1 ≤ (varintValue (.one 17#7)).toNat ∧ (varintValue (.one 17#7)).toNat ≤ base.par.maxPulses ∧
        varintValue (.one 26#7) < varintValue (.one 27#7) ∧
        1 + (varintBytes (.one 17#7)).length + (varintBytes (.one 26#7)).length + (varintBytes (.one 27#7)).length
          ≤ (baseCap 4).par.fbCapacity) := by decide

theorem wit_VarintFormsInCarrierPeriod :
    (atField .cper 73).frm.fstate = .recv ∧ (atField .cper 73).frm.field = .cper ∧ (atField .cper 73).frm.vhave = false ∧
      (atField .cper 73).gen.gstate = .idle ∧ (atField .cper 73).frm.wr + 2 ≤ (atField .cper 73).par.fbCapacity := by decide
theorem wit_VarintFormsInCarrierHigh :
    (atField .chigh 73).frm.fstate = .recv ∧ (atField .chigh 73).frm.field = .chigh ∧ (atField .chigh 73).frm.vhave = false ∧
      (atField .chigh 73).gen.gstate = .idle ∧ (atField .chigh 73).frm.wr + 2 ≤ (atField .chigh 73).par.fbCapacity ∧
      (26#7 : Group).toNat ≤ (atField .chigh 73).frm.cper.toNat ∧
      (26#7 : Group).toNat + 128 * (0#7 : Group).toNat ≤ (atField .chigh 73).frm.cper.toNat := by decide
theorem wit_DurationFormsStored :
    ((atField .pairs 5).frm.fstate = .recv ∧ (atField .pairs 5).frm.field = .pairs ∧ (atField .pairs 5).gen.gstate = .idle ∧
      (atField .pairs 5).frm.wr + 2 ≤ (atField .pairs 5).par.fbCapacity ∧ 3 = (atField .pairs 5).frm.need) ∧
    ((atField .pairs 4).frm.fstate = .recv ∧ (atField .pairs 4).frm.field = .pairs ∧ (atField .pairs 4).gen.gstate = .idle ∧
      (atField .pairs 4).frm.wr + 2 ≤ (atField .pairs 4).par.fbCapacity ∧ 3 ≤ (atField .pairs 4).frm.need) ∧
    ((atField .pairs 6).frm.fstate = .recv ∧ (atField .pairs 6).frm.field = .pairs ∧ (atField .pairs 6).gen.gstate = .idle ∧
      (atField .pairs 6).frm.wr + 2 ≤ (atField .pairs 6).par.fbCapacity ∧ (atField .pairs 6).frm.need = 2 ∧
      1 ≤ (atField .pairs 6).frm.pc ∧ (atField .pairs 6).frm.pc ≤ (atField .pairs 6).par.maxPulses ∧
      (atField .pairs 6).frm.pbase + 1 < (atField .pairs 6).par.fbCapacity) := by decide

theorem wit_CarrierPhaseAdvances :
    Input.idle.rst = false ∧ (running 4#14 2#14 0 2 2#14).gen.gstate = .run ∧
      generatorLegal vecPar (running 4#14 2#14 0 2 2#14).frm (running 4#14 2#14 0 2 2#14).gen ∧
      (running 4#14 2#14 0 2 2#14).gen.c.toNat + 1 < max (running 4#14 2#14 0 2 2#14).gen.gP.toNat 1 := by decide
theorem wit_CarrierTickCountsDown :
    Input.idle.rst = false ∧ (running 0#14 0#14 0 2 0#14).gen.gstate = .run ∧
      generatorLegal vecPar (running 0#14 0#14 0 2 0#14).frm (running 0#14 0#14 0 2 0#14).gen ∧
      (running 0#14 0#14 0 2 0#14).gen.c.toNat + 1 = max (running 0#14 0#14 0 2 0#14).gen.gP.toNat 1 ∧
      2 ≤ (running 0#14 0#14 0 2 0#14).gen.rem := by decide
theorem wit_SegmentAdvances :
    Input.idle.rst = false ∧ (running 4#14 2#14 0 0 3#14).gen.gstate = .run ∧
      generatorLegal vecPar (running 4#14 2#14 0 0 3#14).frm (running 4#14 2#14 0 0 3#14).gen ∧
      (running 4#14 2#14 0 0 3#14).gen.c.toNat + 1 = max (running 4#14 2#14 0 0 3#14).gen.gP.toNat 1 ∧
      (running 4#14 2#14 0 0 3#14).gen.rem ≤ 1 ∧
      (running 4#14 2#14 0 0 3#14).gen.seg + 1 ≠ 2 * (running 4#14 2#14 0 0 3#14).gen.gpc ∧
      (running 4#14 2#14 0 0 3#14).gen.rd + 1 < vecPar.fbCapacity := by decide
theorem wit_GenerationCompletes :
    Input.idle.rst = false ∧ (running 4#14 2#14 1 1 3#14).gen.gstate = .run ∧
      generatorLegal vecPar (running 4#14 2#14 1 1 3#14).frm (running 4#14 2#14 1 1 3#14).gen ∧
      (running 4#14 2#14 1 1 3#14).gen.c.toNat + 1 = max (running 4#14 2#14 1 1 3#14).gen.gP.toNat 1 ∧
      (running 4#14 2#14 1 1 3#14).gen.rem ≤ 1 ∧
      (running 4#14 2#14 1 1 3#14).gen.seg + 1 = 2 * (running 4#14 2#14 1 1 3#14).gen.gpc := by decide
theorem wit_TransmissionEndReported : Input.idle.rst = false ∧ ended.frm.fstate = .xmit ∧ ended.gen.gstate = .idle := by decide
theorem wit_StartsThatCompleteAtOnce :
    ({ pc := 0, cp := 1#14, ch := 1#14, pb := 4 } : Start).pc = 0 ∧
      vecPar.maxPulses < ({ pc := 18, cp := 1#14, ch := 1#14, pb := 4 } : Start).pc := by decide
/-- V80's lengths, 2 and 1, with period 4: 12 cycles. -/
theorem wit_GenerationLastsPeriodTimesLength :
    Inv (started 4#14 2#14) ∧ justStarted (started 4#14 2#14) ∧ noReset (List.replicate 13 Input.idle) ∧
      max (started 4#14 2#14).gen.gP.toNat 1 *
        segStart vecPar (started 4#14 2#14).fb (started 4#14 2#14).frm.pbase (2 * (started 4#14 2#14).gen.gpc) = 12 := by
  refine ⟨inv_started, by decide, ?_, by decide⟩
  intro I h
  rw [List.eq_of_mem_replicate h]
  rfl
/-- The first cycle of segment 1 of the same frame. -/
theorem wit_WaveformClosedForm :
    Inv (started 4#14 2#14) ∧ justStarted (started 4#14 2#14) ∧ noReset (List.replicate 8 Input.idle) ∧
      1 < 2 * (started 4#14 2#14).gen.gpc ∧
      segStart vecPar (started 4#14 2#14).fb (started 4#14 2#14).frm.pbase 1 ≤ 8 / max (started 4#14 2#14).gen.gP.toNat 1 ∧
      8 / max (started 4#14 2#14).gen.gP.toNat 1 < segStart vecPar (started 4#14 2#14).fb (started 4#14 2#14).frm.pbase 2 := by
  refine ⟨inv_started, by decide, ?_, by decide, by decide, by decide⟩
  intro I h
  rw [List.eq_of_mem_replicate h]
  rfl

/-- The other clauses of that statement: inside segment 0, in both halves of its first period, and the last cycle of all. -/
theorem wit_WaveformClosedForm_edges :
    segStart vecPar (started 4#14 2#14).fb 4 0 = 0 ∧ segStart vecPar (started 4#14 2#14).fb 4 1 = 2 ∧
      segStart vecPar (started 4#14 2#14).fb 4 2 = 3 ∧ 0 / 4 < 2 ∧ 7 / 4 < 2 ∧ 11 / 4 = 2 := by decide

theorem wit_InvariantKeptByEveryStep : Inv (started 4#14 2#14) ∧ ∃ t, step (started 4#14 2#14) = .next t :=
  ⟨inv_started, _, rfl⟩
theorem wit_LegalStatesNeverStop : Inv (atField .pairs 7) := inv_lastByte
theorem wit_RegistersFitTheirWidths : Inv (started 4#14 2#14) := inv_started
theorem wit_FullCapacityNeverOverflows :
    Inv base ∧ 7 + 4 * base.par.maxPulses ≤ base.par.fbCapacity ∧ ∃ t, cycle (offer 0x7F#8) base = .next t :=
  ⟨inv_base, by decide, _, rfl⟩
theorem wit_ReservedFieldIsFatal :
    (atField .reserved5 3).frm.fstate = .recv ∧ reservedField (atField .reserved5 3).frm.field = true ∧
      reservedField (atField .reserved7 3).frm.field = true ∧ (atField .reserved5 3).gen.gstate = .idle := by decide
theorem wit_IllegalGeneratorStops :
    (¬ generatorLegal vecPar { (started 4#14 2#14).frm with fstate := .await } (started 4#14 2#14).gen) ∧
    (generatorLegal { vecPar with fbCapacity := 7 } (running 4#14 2#14 0 0 3#14).frm (running 4#14 2#14 0 0 3#14).gen ∧
      (running 4#14 2#14 0 0 3#14).gen.gstate = .run ∧ Input.idle.rst = false ∧
      (running 4#14 2#14 0 0 3#14).gen.c.toNat + 1 = max (running 4#14 2#14 0 0 3#14).gen.gP.toNat 1 ∧
      (running 4#14 2#14 0 0 3#14).gen.rem ≤ 1 ∧
      (running 4#14 2#14 0 0 3#14).gen.seg + 1 ≠ 2 * (running 4#14 2#14 0 0 3#14).gen.gpc ∧
      7 ≤ (running 4#14 2#14 0 0 3#14).gen.rd + 1) := by decide
theorem wit_FrameBufferWrites :
    ∃ t, cycle (offer 0x7F#8) inQuar = .next t ∧ ∃ u, cycle (offer 0x00#8) { inQuar with frm := Framer.reset } = .next u ∧
      fbByte u.fb 0 ≠ fbByte inQuar.fb 0 :=
  ⟨_, rfl, _, rfl, by decide⟩
theorem wit_StartOnlyByAcceptance :
    ∃ t, cycle (offer 0x00#8) { atField .pairs 7 with fb := (started 1#14 1#14).fb } = .next t ∧
      (atField .pairs 7).gen.gstate = .idle ∧ t.gen.gstate = .run :=
  ⟨_, rfl, rfl, rfl⟩
theorem wit_PulsesExclusiveAndQualified : ∃ t, cycle (offer 0x05#8) base = .next t := ⟨_, rfl⟩
theorem wit_QuiescentStateUnchanged : base.frm.fstate = .await ∧ base.gen.gstate = .idle := by decide
theorem wit_OldBufferContentsUnobserved :
    Inv (atField .pairs 7) ∧ (atField .pairs 7).frm.fstate = .recv ∧ (∃ t, cycle (offer 0x00#8) { atField .pairs 7 with
      fb := (started 1#14 1#14).fb } = .next t) ∧ (∃ t, cycle (offer 0x7F#8) base = .next t) ∧
      ({ base with fb := [(9, 0xFF#8)] } : State).frm = base.frm :=
  ⟨inv_lastByte, rfl, ⟨_, rfl⟩, ⟨_, rfl⟩, rfl⟩
theorem wit_UnacceptedByteHasNoEffect : rxReady (started 4#14 2#14).frm = false := by decide
theorem wit_TimersExpire :
    (atPlen.gen.gstate = .idle ∧ atPlen.frm.fstate = .recv ∧ reservedField atPlen.frm.field = false ∧
      atPlen.frm.g < atPlen.par.tInterbyte) ∧
    (inQuar.gen.gstate = .idle ∧ inQuar.frm.fstate = .quar ∧ inQuar.frm.q < inQuar.par.tClear) := by decide
theorem wit_QuarantineExits :
    ∃ t, cycle gtickOnly { inQuar with frm := { inQuar.frm with q := 1 } } = .next t ∧ inQuar.frm.fstate = .quar ∧
      t.frm.fstate ≠ .quar :=
  ⟨_, rfl, rfl, by decide⟩
theorem wit_RejectCauseSticky : ∃ t, cycle (offer 0x05#8) base = .next t ∧ t.frm.rejCause ≠ base.frm.rejCause :=
  ⟨_, rfl, by decide⟩

end Sys2Proof.Tests
end

section
/-! SUPPORT. The invariant by the unit that keeps it: what the framer's part of a cycle keeps, what the generator's part keeps, and
from the two that in a state that meets the invariant every cycle answers and gives such a state again. -/

namespace Sys2Proof.Machine

/-! The framer's share of the invariant, by phase and field. -/

/-- The framer's share of `invRanges`. -/
def framerRanges (P : Params) (F : Framer) : Prop :=
  F.pc ≤ P.maxPulses ∧ F.pbase ≤ P.fbCapacity ∧ F.need ≤ 4 * P.maxPulses ∧ F.wr ≤ P.fbCapacity ∧ F.g ≤ P.tInterbyte ∧
    F.q ≤ P.tClear

theorem partialBytes_none {F : Framer} (h : F.vhave = false) : partialBytes F = 0 := by simp [partialBytes, h]

theorem partialBytes_some {F : Framer} (h : F.vhave = true) : partialBytes F = 1 := by simp [partialBytes, h]

theorem partialBytes_le (F : Framer) : partialBytes F ≤ 1 := by
  cases h : F.vhave <;> simp [partialBytes, h]

/-- What holds of an open frame at each field: R51's invariants 1 to 5 and the offsets of R85. -/
def fieldInv (F : Framer) : Prop :=
  match F.field with
  | .plen => (F.kind = Config.kindReset ∨ F.kind = Config.kindKeepalive) ∧ F.wr = 1 ∧ F.vhave = false
  | .pcount => F.kind = Config.kindIr ∧ F.wr = 1 + partialBytes F
  | .cper => F.kind = Config.kindIr ∧ 1 ≤ F.pc ∧ 2 + partialBytes F ≤ F.wr ∧ F.wr ≤ 3 + partialBytes F
  | .chigh => F.kind = Config.kindIr ∧ 1 ≤ F.pc ∧ 3 + partialBytes F ≤ F.wr ∧ F.wr ≤ 5 + partialBytes F
  | .pairs => F.kind = Config.kindIr ∧ 1 ≤ F.pc ∧ F.vhave = false ∧ F.chigh ≤ F.cper ∧ 1 ≤ F.need ∧ F.need ≤ 4 * F.pc ∧
      F.wr + F.need = F.pbase + 4 * F.pc ∧ 4 ≤ F.pbase ∧ F.pbase ≤ 7
  | .reserved5 => False
  | .reserved6 => False
  | .reserved7 => False

/-- The parts of the invariant that speak of the framer alone, read by phase. -/
structure FramerInv (P : Params) (F : Framer) : Prop where
  ranges : framerRanges P F
  closed : F.fstate ≠ .recv → F.vhave = false
  opened : F.fstate = .recv → F.g < P.tInterbyte ∧ fieldInv F
  quar : invQuar P F

/-- In RECV the field is one a rule writes, and it holds at least the kind byte. -/
theorem fieldInv_field {F : Framer} (h : fieldInv F) : reservedField F.field = false ∧ 1 ≤ F.wr := by
  cases hf : F.field <;> simp only [fieldInv, hf] at h <;> simp [reservedField] <;> omega

theorem framerInv_iff (P : Params) (F : Framer) :
    FramerInv P F ↔ framerRanges P F ∧ invRecv P F ∧ invPlen F ∧ invHeader P F ∧ invPairs F ∧ invPartial F ∧ invGuard P F ∧
      invQuar P F ∧ invOffsets F := by
  constructor
  · rintro ⟨hr, hc, ho, hq⟩
    refine ⟨hr, ?_⟩
    obtain ⟨hpc, -, -, hwr, -, -⟩ := hr
    cases hs : F.fstate with
    | recv =>
      obtain ⟨hg, hf⟩ := ho hs
      have hw := fieldInv_field hf
      cases e : F.field <;> simp only [fieldInv, e] at hf <;> simp_all [invPartial]
    | await | quar | xmit => simp_all
  · rintro ⟨hr, h1, h2, h3, h4, h5, hg, hq, ho⟩
    refine ⟨hr, ?_, fun hs => ⟨hg hs, ?_⟩, hq⟩
    · intro hs
      cases hv : F.vhave <;> simp_all
    · specialize h1 hs
      specialize h2 hs
      specialize h3 hs
      specialize h4 hs
      specialize ho hs
      cases e : F.field <;> cases hv : F.vhave <;> simp_all [fieldInv, reservedField]

theorem FramerInv.wr_le {P : Params} {F : Framer} (h : FramerInv P F) : F.wr ≤ P.fbCapacity := by
  obtain ⟨-, -, -, hwr, -, -⟩ := h.ranges
  exact hwr

/-- A closed framer needs no more than a legal silence count, no partial varint, and the ranges. -/
theorem FramerInv.of_closed {P : Params} {F : Framer} (hs : F.fstate ≠ .recv) (hv : F.vhave = false) (hq : invQuar P F)
    (hr : framerRanges P F) : FramerInv P F :=
  ⟨hr, fun _ => hv, fun h => absurd h hs, hq⟩

/-- A cycle that leaves the frame open has rearmed the guard, so it owes the field's own facts and the ranges. -/
theorem FramerInv.of_open {P : Params} {F : Framer} (hP : P.WF) (hs : F.fstate = .recv) (hg : F.g = 0) (hf : fieldInv F)
    (hr : framerRanges P F) : FramerInv P F := by
  obtain ⟨-, -, hT, -⟩ := hP
  exact ⟨hr, fun h => absurd hs h, fun _ => ⟨by omega, hf⟩, fun h => by simp [hs] at h⟩

/-! What each rule of the framer keeps. -/

theorem framerInv_reset (P : Params) : FramerInv P Framer.reset :=
  .of_closed (by decide) rfl (fun h => by cases h) (by simp [framerRanges, Framer.reset])

theorem framerRanges_counted {P : Params} {F : Framer} (h : framerRanges P F) (hw : F.wr ≠ P.fbCapacity) :
    framerRanges P (counted F) := by
  obtain ⟨hpc, hpb, hn, hwr, -, hq⟩ := h
  exact ⟨hpc, hpb, hn, by simp only [counted]; omega, Nat.zero_le _, hq⟩

/-- REJECT leads into a fresh quarantine whatever the cycle's rule had assigned (R144). -/
theorem framerInv_reject {P : Params} (hP : P.WF) (c : Cause) (F : Framer) (w : Option (Nat × Byte)) (h : framerRanges P F) :
    FramerInv P (reject c F w).frm := by
  obtain ⟨-, -, -, hQ⟩ := hP
  obtain ⟨hpc, hpb, hn, hwr, -, -⟩ := h
  exact .of_closed (by simp) rfl (fun _ => by simp; omega) ⟨hpc, hpb, hn, hwr, Nat.zero_le _, Nat.zero_le _⟩

/-- FIRST_BYTE keeps the framer's invariant (R132). -/
theorem framerInv_firstByte {P : Params} (hP : P.WF) {F : Framer} (h : FramerInv P F) (b : Byte) :
    FramerInv P (firstByte F b).frm := by
  have ⟨_, hB, _, _⟩ := hP
  obtain ⟨hpc, hpb, hn, -, -, hq⟩ := h.ranges
  have hr : framerRanges P { F with wr := 1, g := 0, vhave := false, kind := b } :=
    ⟨hpc, hpb, hn, hB, Nat.zero_le _, hq⟩
  unfold firstByte
  split_ifs with hir hctl
  · exact .of_open hP rfl rfl (by simp [fieldInv, partialBytes, hir]) hr
  · exact .of_open hP rfl rfl (by simp [fieldInv, hctl]) hr
  · exact framerInv_reject hP _ _ _ hr

/-- GUARD_TICK keeps the framer's invariant (R142). -/
theorem framerInv_guardTick {P : Params} (hP : P.WF) {F : Framer} (h : FramerInv P F) : FramerInv P (guardTick P F).frm := by
  unfold guardTick
  split_ifs with hT
  · exact framerInv_reject hP _ _ _ h.ranges
  · obtain ⟨hpc, hpb, hn, hwr, -, hq⟩ := h.ranges
    refine ⟨⟨hpc, hpb, hn, hwr, by simp; omega, hq⟩, h.closed, fun hs => ?_, h.quar⟩
    obtain ⟨-, hF⟩ := h.opened hs
    exact ⟨by simp; omega, hF⟩

/-- Another silence count below the limit keeps the framer's invariant in quarantine (R145, R146). -/
theorem framerInv_silence {P : Params} {F : Framer} (h : FramerInv P F) (hs : F.fstate = .quar) (q : Nat)
    (hq : q < P.tClear) : FramerInv P { F with q := q } := by
  obtain ⟨hpc, hpb, hn, hwr, hg, -⟩ := h.ranges
  exact .of_closed (by simp [hs]) (h.closed (by simp [hs])) (fun _ => hq) ⟨hpc, hpb, hn, hwr, hg, hq.le⟩

/-- Q_TICK keeps the framer's invariant (R146). -/
theorem framerInv_quarantineTick {P : Params} {F : Framer} (h : FramerInv P F) (hs : F.fstate = .quar) :
    FramerInv P (quarantineTick P F) := by
  unfold quarantineTick
  split_ifs with hQ
  · obtain ⟨hpc, hpb, hn, hwr, hg, -⟩ := h.ranges
    exact .of_closed (by simp) (h.closed (by simp [hs])) (by simp) ⟨hpc, hpb, hn, hwr, hg, Nat.zero_le _⟩
  · exact framerInv_silence h hs _ (by omega)

/-- XMIT_WAIT keeps the framer's invariant (R148). -/
theorem framerInv_xmitWait {P : Params} {F : Framer} (h : FramerInv P F) (hs : F.fstate = .xmit) (gs : GState) :
    FramerInv P (xmitWait F gs).frm := by
  cases gs with
  | run => exact h
  | idle => exact .of_closed (by simp [xmitWait]) (h.closed (by simp [hs])) (by simp [xmitWait]) h.ranges

/-- RECV_BYTE keeps the framer's invariant (R134 to R141). -/
theorem framerInv_recvByte {P : Params} (hP : P.WF) {F : Framer} (h : FramerInv P F) (hs : F.fstate = .recv) (b : Byte) :
    FramerInv P (recvByte P F b).frm := by
  obtain ⟨hpc, hpb, hn, hwr, hg, hq⟩ := h.ranges
  obtain ⟨-, hF⟩ := h.opened hs
  have hrc := framerRanges_counted h.ranges
  have hpb1 := partialBytes_le F
  apply recvByte_elim P F b fun r => FramerInv P r.frm
  case reserved => intro; exact h
  case overflow => intro; exact framerInv_reject hP _ _ _ ⟨hpc, hpb, hn, hwr, Nat.zero_le _, hq⟩
  case badPayload => intro hw _ _; exact framerInv_reject hP _ _ _ (hrc hw)
  case overlong => intro hw _ _; exact framerInv_reject hP _ _ _ (hrc hw)
  case badCount => intro v hw _ _; exact framerInv_reject hP _ _ _ (hrc hw)
  case badCarrier => intro v hw _ _; exact framerInv_reject hP _ _ _ (hrc hw)
  case acceptCtrl =>
    intro hw hf _
    simp only [fieldInv, hf] at hF
    obtain ⟨-, -, hv⟩ := hF
    exact .of_closed (by simp [acceptCtrl]) hv (by simp [acceptCtrl]) (hrc hw)
  case more =>
    intro lo hw hf hv
    refine .of_open hP hs rfl ?_ (hrc hw)
    rcases hf with hf | hf | hf <;> simp only [fieldInv, hf, counted, partialBytes_none hv, partialBytes_some] at hF ⊢
    · obtain ⟨hk, hw⟩ := hF
      exact ⟨hk, by omega⟩
    · obtain ⟨hk, hpc1, hlo, hhi⟩ := hF
      exact ⟨hk, hpc1, by omega, by omega⟩
    · obtain ⟨hk, hpc1, hlo, hhi⟩ := hF
      exact ⟨hk, hpc1, by omega, by omega⟩
  case pcount =>
    intro v hw hf h1 h2
    obtain ⟨-, hpb', hn', hwr', hg', hq'⟩ := hrc hw
    refine .of_open hP hs rfl ?_ ⟨h2, hpb', hn', hwr', hg', hq'⟩
    simp only [fieldInv, hf, counted, partialBytes_none] at hF ⊢
    obtain ⟨hk, hw1⟩ := hF
    exact ⟨hk, h1, by omega, by omega⟩
  case cper =>
    intro v hw hf
    refine .of_open hP hs rfl ?_ (hrc hw)
    simp only [fieldInv, hf, counted, partialBytes_none] at hF ⊢
    obtain ⟨hk, hpc1, hlo, hhi⟩ := hF
    exact ⟨hk, hpc1, by omega, by omega⟩
  case chigh =>
    intro v hw hf hle
    obtain ⟨-, -, -, hwr', hg', hq'⟩ := hrc hw
    refine .of_open hP hs rfl ?_ ⟨hpc, hwr', by simp; omega, hwr', hg', hq'⟩
    simp only [fieldInv, hf, counted] at hF ⊢
    obtain ⟨hk, hpc1, hlo, hhi⟩ := hF
    exact ⟨hk, hpc1, trivial, hle, by omega, le_rfl, trivial, by omega, by omega⟩
  case acceptIr =>
    intro hw hf _
    simp only [fieldInv, hf] at hF
    obtain ⟨-, -, hv, -⟩ := hF
    obtain ⟨-, -, -, hwr', hg', hq'⟩ := hrc hw
    exact .of_closed (by simp [acceptIr]) hv (by simp [acceptIr])
      ⟨hpc, hpb, (Nat.sub_le _ _).trans hn, hwr', hg', hq'⟩
  case pairs =>
    intro hw hf hne
    obtain ⟨-, -, -, hwr', hg', hq'⟩ := hrc hw
    refine .of_open hP hs rfl ?_ ⟨hpc, hpb, (Nat.sub_le _ _).trans hn, hwr', hg', hq'⟩
    simp only [fieldInv, hf, counted] at hF ⊢
    obtain ⟨hk, hpc1, hv, hle, hn1, hn4, hsum, hpb4, hpb7⟩ := hF
    exact ⟨hk, hpc1, hv, hle, by omega, by omega, by omega, hpb4, hpb7⟩

/-- The framer's part of a cycle keeps the framer's invariant, whatever the input. -/
theorem framerInv_frmStep {P : Params} (hP : P.WF) {F : Framer} (h : FramerInv P F) (gs : GState) (I : Input) :
    FramerInv P (frmStep P F gs I).frm := by
  apply frmStep_elim P F gs I fun r => FramerInv P r.frm
  case first => intro b _ _; exact framerInv_firstByte hP h b
  case byte => intro b hs _ _; exact framerInv_recvByte hP h hs b
  case guard => intros; exact framerInv_guardTick hP h
  case quarByte =>
    intro b hs _
    obtain ⟨-, -, -, hQ⟩ := hP
    exact framerInv_silence h hs 0 hQ
  case quarTick => intro hs _ _; exact framerInv_quarantineTick h hs
  case xmit => intro hs; exact framerInv_xmitWait h hs gs
  all_goals intros; exact h

/-! The generator's share of the invariant. -/

/-- The generator's share of `invRanges`. -/
def generatorRanges (P : Params) (G : Generator) : Prop :=
  G.seg ≤ 2 * P.maxPulses ∧ G.rem < 2 ^ P.wDur ∧ G.gpc ≤ P.maxPulses ∧ G.rd ≤ P.fbCapacity

/-- The parts of the invariant that speak of the generator, beside the framer that started it. -/
structure GeneratorInv (P : Params) (F : Framer) (G : Generator) : Prop where
  ranges : generatorRanges P G
  legal : generatorLegal P F G
  idle : invIdle F G
  stored : invStored F G

/-- A stopped generator owes only its ranges. -/
theorem GeneratorInv.of_idle {P : Params} {F : Framer} {G : Generator} (h : G.gstate = .idle) (hr : generatorRanges P G) :
    GeneratorInv P F G :=
  ⟨hr, generatorLegal_idle P F G h, fun _ => h, fun hs => by simp [h] at hs⟩

theorem generatorInv_reset (P : Params) (F : Framer) : GeneratorInv P F Generator.reset :=
  .of_idle rfl (by simp [generatorRanges, Generator.reset])

/-- The effective period is at least one cycle (R192). -/
theorem peff_pos (G : Generator) : 0 < peff G := by simp [peff]

/-- The effective period fits the phase register (R11, R192). -/
theorem peff_le (G : Generator) : peff G ≤ 2 ^ 14 - 1 := by
  have := G.gP.isLt
  simp only [peff]
  omega

/-- Every duration read from FB fits `W_DUR` bits (R11, R63). -/
theorem readDuration_lt {P : Params} {m : Memory} {a d : Nat} (h : readDuration P m a = .ok d) : d < 2 ^ P.wDur := by
  rcases memRead_cases P m a with ⟨-, h0⟩ | ⟨-, h0⟩ <;> simp only [readDuration, h0] at h
  · rcases memRead_cases P m (a + 1) with ⟨-, h1⟩ | ⟨-, h1⟩ <;> simp only [h1] at h
    · injection h with h
      exact h ▸ dur_lt P _ _
    · cases h
  · cases h

/-- The generator's part of a cycle answers: a segment that is not the last has its successor's duration in FB (R187). -/
theorem genStep_answers {P : Params} {F : Framer} {G : Generator} (h : GeneratorInv P F G) (hw : F.wr ≤ P.fbCapacity)
    (m : Memory) : ∃ r, genStep P m G = .ok r := by
  cases hs : G.gstate with
  | idle => exact ⟨_, genStep_idle P m G hs⟩
  | run =>
    obtain ⟨-, -, -, hseg, -, -, hrd, -⟩ := h.legal hs
    have hst := h.stored hs
    by_cases hc : G.c.toNat + 1 < peff G
    · exact ⟨_, genStep_phase P m G hs hc⟩
    rw [genStep_tick P m G hs hc]
    by_cases hr : 2 ≤ G.rem
    · exact ⟨_, carrierTick_count P m _ hr⟩
    by_cases hl : G.seg + 1 = 2 * G.gpc
    · exact ⟨_, carrierTick_complete P m { G with c := 0#14 } (by simp; omega) hl⟩
    · exact ⟨_, carrierTick_advance P m { G with c := 0#14 } (by simp; omega) hl (by simp; omega)⟩

/-- The generator's part of a cycle keeps the generator's invariant beside an unchanged framer. -/
theorem generatorInv_genStep {P : Params} {F : Framer} {G : Generator} (h : GeneratorInv P F G) (hw : F.wr ≤ P.fbCapacity)
    {m : Memory} {r : GenResult} (hr : genStep P m G = .ok r) : GeneratorInv P F r.gen := by
  obtain ⟨hseg, hrem, hgpc, hrd⟩ := h.ranges
  obtain ⟨-, hP, hH, hN, hcase⟩ := genStep_cases P m G r hr
  rcases hcase with ⟨-, rfl⟩ | ⟨hs, hs', -, hseg', hrd', hrem', hc⟩ | ⟨hs, hs', -, hseg', hrd', hd, hc, hl⟩ | ⟨hs, rfl, hl⟩
  · exact h
  · obtain ⟨hx, h1, h2, h3, -, h5, h6, h7⟩ := h.legal hs
    have hc' : r.gen.c.toNat < peff r.gen := by
      have hp : peff r.gen = peff G := by simp only [peff, hP]
      rcases hc with ⟨e, hlt⟩ | e
      · have := peff_le G
        rw [hp, e, BitVec.toNat_add, BitVec.toNat_ofNat]
        omega
      · simpa [e] using peff_pos r.gen
    exact ⟨⟨by omega, by omega, by omega, by omega⟩,
      fun _ => ⟨hx, by omega, by omega, by omega, hc', by rw [hP, hH]; exact h5, by omega, by omega⟩,
      fun hn => absurd hx hn, fun _ => by rw [hN]; exact h.stored hs⟩
  · obtain ⟨hx, h1, h2, h3, -, h5, h6, h7⟩ := h.legal hs
    have hst := h.stored hs
    exact ⟨⟨by omega, readDuration_lt hd, by omega, by omega⟩,
      fun _ => ⟨hx, by omega, by omega, by omega, by simpa [hc] using peff_pos r.gen, by rw [hP, hH]; exact h5, by omega,
        by omega⟩,
      fun hn => absurd hx hn, fun _ => by rw [hN]; exact hst⟩
  · exact .of_idle rfl ⟨by simp [complete]; omega, by simp [complete], hgpc, hrd⟩

/-! The start. -/

/-- What the invariant says of the registers a start is issued from: the whole frame lies in FB, one byte of it still to be
written (R141, R181). -/
theorem start_operands {P : Params} {F : Framer} (h : FramerInv P F) (gs : GState) (I : Input) (st : Start)
    (hst : (frmStep P F gs I).start = some st) :
    1 ≤ st.pc ∧ st.pc ≤ P.maxPulses ∧ st.ch ≤ st.cp ∧ st.pb + 4 * st.pc = F.wr + 1 ∧ F.wr + 1 ≤ P.fbCapacity ∧
      (frmStep P F gs I).frm = { counted F with fstate := .xmit, need := 0 } ∧ st.pb = F.pbase := by
  obtain ⟨hs, hf, hn, hw, rfl, b, -, e⟩ := frmStep_start P F gs I st hst
  have hwr := h.wr_le
  obtain ⟨hpc, -⟩ := h.ranges
  obtain ⟨-, hF⟩ := h.opened hs
  simp only [fieldInv, hf] at hF
  obtain ⟨-, hpc1, -, hle, -, -, hsum, -, -⟩ := hF
  exact ⟨hpc1, hpc, hle, by simp only; omega, by omega, by rw [e]; rfl, rfl⟩

/-- A start the framer issues is normal: it answers with the first duration, and the generator runs as the invariant asks. -/
theorem start_answers {P : Params} {F : Framer} (h : FramerInv P F) (gs : GState) (I : Input) (st : Start)
    (hst : (frmStep P F gs I).start = some st) (m : Memory) (G : Generator) :
    ∃ r, startGen P m st G = .ok r ∧ GeneratorInv P (frmStep P F gs I).frm r.gen := by
  obtain ⟨h1, h2, hle, hsum, hcap, e, hpb⟩ := start_operands h gs I st hst
  have hd := readDuration_ok P m st.pb (by omega)
  refine ⟨_, startGen_ok P m st G h1 h2 (by omega), ?_⟩
  rw [e]
  exact ⟨⟨by simp, readDuration_lt hd, h2, by simp; omega⟩,
    fun _ => ⟨rfl, h1, h2, by simp; omega, by simpa using peff_pos _, hle, by simp [counted]; omega,
      by simp [counted]; omega⟩,
    fun hn => absurd rfl hn, fun _ => by simp [counted]; omega⟩

/-! The block. -/

/-- The invariant is the framer's, the generator's and the memory's share on a legal instance. -/
theorem inv_iff (s : State) :
    Inv s ↔ s.par.WF ∧ FramerInv s.par s.frm ∧ GeneratorInv s.par s.frm s.gen ∧ invMemory s := by
  rw [framerInv_iff]
  constructor
  · rintro ⟨hP, ⟨h1, h2, h3, h4, h5, h6, h7, h8, h9⟩, ho, hst, ⟨r1, r2, r3, r4, r5, r6, r7⟩, hm⟩
    exact ⟨hP, ⟨⟨r1, r2, r3, r4, r5, r6⟩, h1, h2, h3, h4, h5, h6, h7, ho⟩, ⟨r7, h8, h9, hst⟩, hm⟩
  · rintro ⟨hP, ⟨⟨r1, r2, r3, r4, r5, r6⟩, h1, h2, h3, h4, h5, h6, h7, ho⟩, ⟨r7, h8, h9, hst⟩, hm⟩
    exact ⟨hP, ⟨h1, h2, h3, h4, h5, h6, h7, h8, h9⟩, ho, hst, ⟨r1, r2, r3, r4, r5, r6, r7⟩, hm⟩

/-- The coming inputs are no part of what the invariant speaks of. -/
theorem inv_withScript {s : State} (h : Inv s) (l : List Item) : Inv (s.withScript l) := h

theorem inv_hold {s : State} (h : Inv s) (bs : List Byte) : Inv (s.hold bs) := h

/-- The framer's write of a cycle answers, in a memory that meets the invariant again (R60, R62). -/
theorem storeByte_answers {s : State} (hP : s.par.WF) (hF : FramerInv s.par s.frm) (hm : invMemory s) (I : Input) :
    ∃ fb, storeByte s.par s.fb (frmStep s.par s.frm s.gen.gstate I).write = .ok fb ∧ fb.wf = true ∧
      fb.within s.par.fbCapacity = true := by
  obtain ⟨hwf, hin⟩ := hm
  cases hw : (frmStep s.par s.frm s.gen.gstate I).write with
  | none => exact ⟨s.fb, rfl, hwf, hin⟩
  | some ab =>
    obtain ⟨a, b⟩ := ab
    have ha : a < s.par.fbCapacity := by
      obtain ⟨-, hB, -, -⟩ := hP
      have hwr := hF.wr_le
      rcases frmStep_write _ _ _ _ a b hw with ⟨-, ⟨-, rfl⟩ | ⟨-, rfl, hne⟩⟩ <;> omega
    exact ⟨s.fb.write a b, by simp [storeByte, memWrite, ha], wf_write _ _ _ hwf, within_write _ _ _ _ hin ha⟩

/-- The last part of a cycle answers: a start replaces the generator's step, and without one that step stands beside a framer that
waits as long as the generator runs (R8, R148). -/
theorem startOrKeep_answers {P : Params} {F : Framer} {G : Generator} (hF : FramerInv P F) (hG : GeneratorInv P F G) (I : Input)
    {m : Memory} {g : GenResult} (hg : genStep P m G = .ok g) (fb : Memory) :
    ∃ st, startOrKeep P fb (frmStep P F G.gstate I).start g.gen = .ok st ∧
      GeneratorInv P (frmStep P F G.gstate I).frm st.gen := by
  cases hs : (frmStep P F G.gstate I).start with
  | some x => exact start_answers hF _ _ x hs fb g.gen
  | none =>
    refine ⟨_, rfl, ?_⟩
    cases hr : G.gstate with
    | idle =>
      rw [genStep_idle _ _ _ hr] at hg
      injection hg with hg
      exact hg ▸ .of_idle hr hG.ranges
    | run =>
      rw [frmStep_xmit _ _ _ _ (hG.legal hr).1]
      exact generatorInv_genStep (r := g) hG hF.wr_le hg

/-- In a state that meets the invariant every cycle answers, whatever the input, and its next state meets the invariant. -/
theorem cycle_answers_inv (s : State) (I : Input) (h : Inv s) : ∃ t, cycle I s = .next t ∧ Inv t := by
  obtain ⟨hP, hF, hG, hm⟩ := (inv_iff s).1 h
  cases h0 : I.rst with
  | true =>
    exact ⟨_, cycle_reset I s h0, (inv_iff _).2 ⟨hP, framerInv_reset _, generatorInv_reset _ _, hm⟩⟩
  | false =>
    obtain ⟨g, hg⟩ := genStep_answers hG hF.wr_le s.fb
    obtain ⟨fb, hw, hm'⟩ := storeByte_answers hP hF hm I
    have hF' := framerInv_frmStep hP hF s.gen.gstate I
    have hfatal : (frmStep s.par s.frm s.gen.gstate I).pulses.fatal = false := by
      rw [← Bool.not_eq_true, frmStep_fatal_iff]
      rintro ⟨hs, hf⟩
      obtain ⟨-, hfield⟩ := hF.opened hs
      obtain ⟨hres, -⟩ := fieldInv_field hfield
      exact absurd hf (by simp [hres])
    obtain ⟨st, hst, hG'⟩ := startOrKeep_answers hF hG I hg fb
    exact ⟨_, cycle_ok I s g fb st h0 hg hw hst hfatal hG.legal, (inv_iff _).2 ⟨hP, hF', hG', hm'⟩⟩

/-- Every cycle keeps the invariant. -/
theorem cycle_keeps_inv (I : Input) (s t : State) (h : Inv s) (ht : cycle I s = .next t) : Inv t := by
  obtain ⟨u, hu, hi⟩ := cycle_answers_inv s I h
  rw [ht] at hu
  injection hu with hu
  exact hu ▸ hi

/-! Deliveries, operations and steps. -/

/-- A delivery of any length answers from a state that meets the invariant. -/
theorem deliver_answers_inv (bs : List Byte) (s : State) (h : Inv s) : ∃ t, deliver bs s = .next t ∧ Inv t := by
  induction bs generalizing s with
  | nil => exact ⟨s, rfl, h⟩
  | cons b bs ih =>
    obtain ⟨u, hu, hi⟩ := cycle_answers_inv s (offer b) h
    cases hr : rxReady s.frm with
    | true =>
      rw [deliver_ready b bs s hr, hu]
      exact ih u hi
    | false =>
      rw [deliver_busy b bs s hr, hu]
      exact ⟨_, rfl, inv_hold hi _⟩

theorem eventCycle_answers_inv (I : Input) (s : State) (h : Inv s) : ∃ t, eventCycle I s = .next t ∧ Inv t := by
  obtain ⟨u, hu, hi⟩ := cycle_answers_inv s I h
  cases hr : rxReady s.frm with
  | true => exact ⟨u, by rw [eventCycle_ready I s hr, hu], hi⟩
  | false => exact ⟨_, by rw [eventCycle_busy I s hr, hu]; rfl, inv_hold hi _⟩

/-- Every operation answers from a state that meets the invariant, and gives such a state again. -/
theorem exec_answers_inv (i : Instr) (s : State) (h : Inv s) : ∃ t, exec i s = .next t ∧ Inv t := by
  cases i with
  | evRst | evByte | evGtick | evWedged => exact eventCycle_answers_inv _ s h
  | _ => exact deliver_answers_inv _ s h

/-- Every step answers from a state that meets the invariant, and gives such a state again. -/
theorem step_answers_inv (s : State) (h : Inv s) : ∃ t, step s = .next t ∧ Inv t := by
  unfold step
  cases fetch s with
  | none => exact cycle_answers_inv _ _ (inv_withScript h _)
  | some d => exact exec_answers_inv d.1 _ (inv_withScript h _)

/-- Settles O46: the invariant makes every part of a cycle answer, and every cycle gives it again. -/
theorem legalStatesNeverStop : Obligations.LegalStatesNeverStop := by
  intro s h
  obtain ⟨t, ht, -⟩ := step_answers_inv s h
  refine ⟨⟨t, ht⟩, fun i => ?_⟩
  obtain ⟨u, hu, -⟩ := exec_answers_inv i s h
  exact ⟨u, hu⟩

end Sys2Proof.Machine
end

section
/-! SUPPORT. The widths of R11, each `ceil(log2(n + 1))` bits for a register that holds at most `n`. -/

namespace Sys2Proof.Machine

/-- A value of at most `n` fits the binary digits of `n`. -/
theorem lt_two_pow_bitLength {v n : Nat} (h : v ≤ n) : v < 2 ^ bitLength n := by
  refine h.trans_lt ?_
  unfold bitLength
  split_ifs with h0
  · simp [h0]
  · exact Nat.lt_log2_self

/-- Settles O47: each width of R11 is the bit length of the bound that `invRanges` gives the register. -/
theorem registersFitTheirWidths : Obligations.RegistersFitTheirWidths := by
  intro s h
  obtain ⟨-, -, -, -, ⟨hpc, hpb, hn, hwr, hg, hq, hseg, hrem, hgpc, hrd⟩, -⟩ := h
  exact ⟨lt_two_pow_bitLength hwr, lt_two_pow_bitLength hpb, lt_two_pow_bitLength hrd, lt_two_pow_bitLength hpc,
    lt_two_pow_bitLength hgpc, lt_two_pow_bitLength hseg, lt_two_pow_bitLength hn, lt_two_pow_bitLength hg,
    lt_two_pow_bitLength hq, hrem⟩

end Sys2Proof.Machine
end

section
/-! SUPPORT. The decoder on what the encoder gives, and a step from the first of the coming inputs. -/

namespace Sys2Proof

open Machine

/-! Decoding an encoding (R80 to R84). -/

@[simp] theorem decodeVarint_varintBytes (v : Varint) (rest : List Byte) :
    decodeVarint (varintBytes v ++ rest) = .ok (v, rest) := by
  cases v <;> simp [varintBytes, decodeVarint]

theorem decodeDurations_durationBytes (ds : List (Byte × Byte)) (rest : List Byte) :
    decodeDurations ds.length (durationBytes ds ++ rest) = .ok (ds, rest) := by
  induction ds with
  | nil => rfl
  | cons d ds ih => simp [durationBytes, decodeDurations, ih]

/-- An IR frame with one high and one low duration for each of its pulses is read back (R82). -/
theorem decodeIr_encoded (n cp ch : Varint) (ds : List (Byte × Byte)) (hd : ds.length = 2 * (varintValue n).toNat)
    (rest : List Byte) :
    decodeIr (varintBytes n ++ varintBytes cp ++ varintBytes ch ++ durationBytes ds ++ rest) =
      .ok (.irPattern n cp ch ds, rest) := by
  simp [decodeIr, List.append_assoc, ← hd, decodeDurations_durationBytes]

/-- A well-formed operation's trace line is read as that operation, with nothing left, where its bytes are read as it. -/
theorem decodeItem_encode {P : Params} {i : Instr} (h : i.wf P = true) :
    decodeItem (placeOf i) true (encode i) = some (i, []) := by
  cases i with
  | keepalive | resetRequest => rfl
  | ctrlBadPayload k p =>
    have hp : p ≠ 0x00#8 := by simpa [Instr.wf] using h
    cases k <;> simp [encode, placeOf, decodeItem, decodeStream, decodeBytes, decodeMessage, decodeCtrl, hp, Config.kindIr,
      Config.kindReset, Config.kindKeepalive]
  | irPattern n cp ch ds =>
    have hd : ds.length = 2 * (varintValue n).toNat := by simp [Instr.wf] at h; exact h.2
    have e := decodeIr_encoded n cp ch ds hd []
    rw [List.append_nil] at e
    simp only [encode, placeOf, decodeItem, decodeStream, decodeBytes, decodeMessage, Config.kindIr, if_true, e]
  | unrecognizedKind k =>
    have hk : (k ≠ Config.kindIr ∧ k ≠ Config.kindReset) ∧ k ≠ Config.kindKeepalive := by simpa [Instr.wf, knownKind] using h
    obtain ⟨⟨h1, h2⟩, h3⟩ := hk
    simp [encode, placeOf, decodeItem, decodeStream, decodeBytes, decodeMessage, h1, h2, h3]
  | varint1 | varint2 | varintOverlong =>
    simp [encode, placeOf, decodeItem, decodeStream, decodeBytes, decodeVarintForm]
  | durationSplit7 | durationLe16 =>
    simp [encode, placeOf, decodeItem, decodeStream, decodeBytes, decodeDurationForm]
  | evRst | evByte | evGtick => rfl
  | evWedged acc gtick =>
    have hw : acc = none ∧ gtick = false := by simpa [Instr.wf] using h
    obtain ⟨rfl, rfl⟩ := hw
    rfl

end Sys2Proof

namespace Sys2Proof.Machine

/-! A step, by what comes first (R6, R7). -/

/-- What the first of the coming inputs decodes to is fetched, and the bytes it leaves are put back before the rest. -/
theorem fetch_decoded {s : State} {item : Item} {rest : List Item} {i : Instr} {left : List Byte} (hs : s.script = item :: rest)
    (hr : ∀ b bs, item = .bytes b bs → rxReady s.frm = true)
    (hd : decodeItem (place s.par s.frm) (rxReady s.frm) item = some (i, left)) : fetch s = some (i, pushBytes left rest) := by
  cases item with
  | cycle I =>
    obtain ⟨j, hj, e⟩ : ∃ j, decodeInput (rxReady s.frm) I = some j ∧ (j, []) = (i, left) := by
      simpa [decodeItem] using hd
    injection e with e1 e2
    simp [fetch, hs, hj, e1, ← e2]
  | bytes b bs =>
    have e : decodeStream (place s.par s.frm) b bs = (i, left) := by simpa [decodeItem] using hd
    simp [fetch, hs, hr b bs rfl, e]

theorem step_of_fetch {s : State} {i : Instr} {rest : List Item} (h : fetch s = some (i, rest)) :
    step s = exec i (s.withScript rest) := by
  simp [step, h]

theorem step_of_no_fetch {s : State} (h : fetch s = none) : step s = cycle (quietInput s) (s.withScript (quietRest s)) := by
  simp [step, h]

/-- Settles O11: the step fetches what the first of the coming inputs decodes to, and an encoding decodes to its operation. -/
theorem stepRunsTheDecodedOperation : Obligations.StepRunsTheDecodedOperation := by
  intro s rest
  refine ⟨fun item i left hs hr hd => step_of_fetch (fetch_decoded hs hr hd), fun i hwf hs hr hp => ?_⟩
  have hd : decodeItem (place s.par s.frm) (rxReady s.frm) (encode i) = some (i, []) := by
    have h := decodeItem_encode hwf
    rw [hr]
    cases e : encode i with
    | cycle I => simpa only [e, decodeItem] using h
    | bytes b bs => rw [hp b bs e, ← e]; exact h
  exact step_of_fetch (fetch_decoded hs (fun _ _ _ => hr) hd)

/-- An event's meaning is the cycle with its record, from which a byte offered to a busy block is left out (R20, R222). -/
theorem exec_decodeInput {ready : Bool} {I : Input} {i : Instr} (h : decodeInput ready I = some i) (s : State) :
    exec i s = eventCycle { I with rx := if ready then I.rx else none } s := by
  obtain ⟨rst, rx, gtick, wedged⟩ := I
  unfold decodeInput at h
  cases rst with
  | true =>
    injection h with h
    subst h
    rfl
  | false =>
    simp only [Bool.false_eq_true, if_false] at h
    cases hb : (if ready then rx else none) with
    | some b =>
      simp only [hb] at h ⊢
      injection h with h
      subst h
      rfl
    | none =>
      simp only [hb] at h ⊢
      split_ifs at h with hg hw
      · injection h with h
        subst h hg
        rfl
      · injection h with h
        subst h hw
        rw [Bool.not_eq_true] at hg
        subst hg
        rfl

/-- A busy block looks at nothing of its input but the reset (R131, R149). -/
theorem cycle_busy_congr {I J : Input} (s : State) (hr : rxReady s.frm = false) (h : I.rst = J.rst) :
    cycle I s = cycle J s := by
  have hx : s.frm.fstate = .xmit := by
    by_contra hn
    simp [(ready_iff s.frm).2 hn] at hr
  simp only [cycle, blockStep, frmStep_xmit _ _ _ _ hx, h]

/-- The event that a record is read as runs the cycle with exactly that record. -/
theorem exec_decodeInput_eq_cycle {s : State} {I : Input} {i : Instr} (h : decodeInput (rxReady s.frm) I = some i) :
    exec i s = cycle I s := by
  rw [exec_decodeInput h]
  cases hr : rxReady s.frm with
  | true => exact eventCycle_ready _ s hr
  | false => exact (eventCycle_noByte _ s rfl).trans (cycle_busy_congr s hr rfl)

theorem step_cycle {s : State} {I : Input} {rest : List Item} (hs : s.script = .cycle I :: rest) :
    step s = cycle I (s.withScript rest) := by
  cases hd : decodeInput (rxReady s.frm) I with
  | none =>
    rw [step_of_no_fetch (by simp [fetch, hs, hd])]
    simp [quietInput, quietRest, hs]
  | some i =>
    have hf : fetch s = some (i, rest) := by simp [fetch, hs, hd]
    rw [step_of_fetch hf]
    exact exec_decodeInput_eq_cycle hd

/-- Settles O12: the event a record is read as runs its cycle, and a record of no event is run as it stands. -/
theorem stepOnARecordIsOneCycle : Obligations.StepOnARecordIsOneCycle := by
  intro s I rest hs
  refine ⟨step_cycle hs, fun S O h => ?_, fun e h => ?_⟩
  · rw [step_cycle hs, cycle_eq_next]
    exact ⟨(S, O), h, rfl⟩
  · simp [step_cycle hs, cycle, h]

end Sys2Proof.Machine
end

section
/-! SUPPORT. The invariant at reset and after every step, from what its parts keep. -/

namespace Sys2Proof.Machine

/-- Settles O45: a step from a state that meets the invariant answers one state, and that one meets it. -/
theorem invariantKeptByEveryStep : Obligations.InvariantKeptByEveryStep := by
  intro s t h ht
  obtain ⟨u, hu, hi⟩ := step_answers_inv s h
  rw [ht] at hu
  injection hu with hu
  exact hu ▸ hi

/-- The instance after power-on is legal, whatever the two open limits are (R10, R254). -/
theorem config_params_wf : Config.params.WF :=
  ⟨by decide, by decide, Nat.le_add_left _ _, Nat.le_add_left _ _⟩

/-- Settles O44: the two units are at reset on a legal instance, and no byte of FB is listed. -/
theorem invariantHoldsAtReset : Obligations.InvariantHoldsAtReset :=
  (inv_iff State.reset).2 ⟨config_params_wf, framerInv_reset _, generatorInv_reset _ _, rfl, rfl⟩

end Sys2Proof.Machine
end

section
/-! SUPPORT. What a cycle shows and records: the Moore outputs and the status word by their bit places, the pulses, the sticky cause. -/

namespace Sys2Proof.Machine

/-- Settles O57: a busy block looks at nothing of its input but the reset. -/
theorem unacceptedByteHasNoEffect : Obligations.UnacceptedByteHasNoEffect :=
  fun s _ _ hr => cycle_busy_congr s hr rfl

/-! The status word (R26), with each code the number that R30, R31, R43 and R220 list for it. -/

theorem fstateCode_mem (f : FState) :
    (f, (fstateCode f).toNat) ∈ [(FState.await, 0), (.recv, 1), (.quar, 2), (.xmit, 3)] := by
  cases f <;> decide

theorem fieldCode_mem (f : Field) :
    (f, (fieldCode f).toNat) ∈ [(Field.plen, 0), (.pcount, 1), (.cper, 2), (.chigh, 3), (.pairs, 4), (.reserved5, 5), (.reserved6, 6),
      (.reserved7, 7)] := by
  cases f <;> decide

theorem gstateCode_mem (g : GState) : (g, (gstateCode g).toNat) ∈ [(GState.idle, 0), (.run, 1)] := by
  cases g <;> decide

theorem causeCode_mem (c : Cause) :
    (c, (causeCode c).toNat) ∈ [(Cause.none, 0), (.badKind, 1), (.badPayloadLen, 2), (.varintOverlong, 3), (.badPulseCount, 4),
      (.badCarrier, 5), (.fbOverflow, 6), (.timeout, 7)] := by
  cases c <;> decide

/-- Bits put in front of `m` bits count `2 ^ m` each. -/
theorem toNat_append_eq_add {n m : Nat} (x : BitVec n) (y : BitVec m) : (x ++ y).toNat = 2 ^ m * x.toNat + y.toNat := by
  rw [BitVec.toNat_append, Nat.shiftLeft_eq, mul_comm, Nat.two_pow_add_eq_or_of_lt y.isLt]

/-- The status word as a number: its fields at their bit places, 0 at the reserved ones. -/
theorem statusWord_toNat (F : Framer) (G : Generator) :
    (statusWord F G).toNat = (fstateCode F.fstate).toNat + 4 * (fieldCode F.field).toNat + (if F.vhave then 32 else 0) +
      64 * (gstateCode G.gstate).toNat + 256 * (causeCode F.rejCause).toNat := by
  simp only [statusWord, toNat_append_eq_add]
  cases F.vhave <;> simp <;> omega

/-- `rx_ready` as a test of the phase (R22). -/
theorem rxReady_eq_decide (F : Framer) : rxReady F = decide (F.fstate ≠ .xmit) := by
  rw [Bool.eq_iff_iff, ready_iff, decide_eq_true_iff]

/-- Settles O53: the status word by its bit places, the other outputs by their definitions. -/
theorem mooreOutputs : Obligations.MooreOutputs := by
  intro F G
  exact ⟨rxReady_eq_decide F, rfl, rfl, rfl, rfl, rfl, rfl, rfl, _, _, _, _, statusWord_toNat F G, fstateCode_mem _, fieldCode_mem _,
    gstateCode_mem _, causeCode_mem _⟩

/-! The pulses of a cycle (R21, R24, R42). -/

/-- Settles O54: the framer's pulses are qualified and exclude each other, the generator adds only its own two, and a reset cycle
pulses nothing. -/
theorem pulsesExclusiveAndQualified : Obligations.PulsesExclusiveAndQualified := by
  intro s t I h
  rcases cycle_next I s t h with ⟨-, rfl⟩ | ⟨h0, g, fb, st, -, -, -, -, -, rfl⟩
  · exact ⟨_, rfl, rfl, by simp, by simp, by simp, fun _ => rfl, fun _ => rfl, fun _ => rfl⟩
  · obtain ⟨hacc, haccDone, hrejDone, hkind, hcause, -, -⟩ := frmStep_pulses s.par s.frm s.gen.gstate I
    exact ⟨_, rfl, rfl, hacc, haccDone, hrejDone, hkind, hcause, fun h1 => by simp [h0] at h1⟩

/-- `rej_cause` goes with the `reject` pulse: a part that pulses it has set the register to the pulsed cause, and one that does not has
left the register as it was (R42, R144). -/
def causeFollowsPulse (F : Framer) (r : FrmResult) : Prop :=
  r.frm.rejCause = if r.pulses.reject then r.pulses.rejectCause else F.rejCause

theorem causeFollowsPulse_reject (F : Framer) (c : Cause) (F' : Framer) (w : Option (Nat × Byte)) :
    causeFollowsPulse F (reject c F' w) := rfl

/-- A part that does not pulse `reject` owes only the register it started with. -/
theorem causeFollowsPulse_kept {F : Framer} {r : FrmResult} (hp : r.pulses.reject = false) (hc : r.frm.rejCause = F.rejCause) :
    causeFollowsPulse F r := by
  simp [causeFollowsPulse, hp, hc]

theorem causeFollowsPulse_firstByte (F : Framer) (b : Byte) : causeFollowsPulse F (firstByte F b) := by
  simp only [firstByte]
  split_ifs
  · exact causeFollowsPulse_kept rfl rfl
  · exact causeFollowsPulse_kept rfl rfl
  · exact causeFollowsPulse_reject ..

theorem causeFollowsPulse_recvByte (P : Params) (F : Framer) (b : Byte) : causeFollowsPulse F (recvByte P F b) := by
  apply recvByte_elim P F b (causeFollowsPulse F)
  case overflow | badPayload | overlong | badCount | badCarrier => intros; exact causeFollowsPulse_reject ..
  all_goals intros; exact causeFollowsPulse_kept rfl rfl

theorem causeFollowsPulse_guardTick (P : Params) (F : Framer) : causeFollowsPulse F (guardTick P F) := by
  unfold guardTick
  split_ifs
  · exact causeFollowsPulse_reject ..
  · exact causeFollowsPulse_kept rfl rfl

theorem quarantineTick_rejCause (P : Params) (F : Framer) : (quarantineTick P F).rejCause = F.rejCause := by
  unfold quarantineTick
  split_ifs <;> rfl

theorem causeFollowsPulse_frmStep (P : Params) (F : Framer) (gs : GState) (I : Input) : causeFollowsPulse F (frmStep P F gs I) := by
  apply frmStep_elim P F gs I (causeFollowsPulse F)
  case first => intro b _ _; exact causeFollowsPulse_firstByte F b
  case byte => intro b _ _ _; exact causeFollowsPulse_recvByte P F b
  case guard => intros; exact causeFollowsPulse_guardTick P F
  case quarTick => intros; exact causeFollowsPulse_kept rfl (quarantineTick_rejCause P F)
  case xmit => intro _; cases gs <;> exact causeFollowsPulse_kept rfl rfl
  all_goals intros; exact causeFollowsPulse_kept rfl rfl

/-- Settles O60: reset clears the cause, and otherwise the register is the framer's, where it goes with the pulse. -/
theorem rejectCauseSticky : Obligations.RejectCauseSticky := by
  intro s t I h
  rcases cycle_next I s t h with ⟨h0, rfl⟩ | ⟨h0, g, fb, st, -, -, -, -, -, rfl⟩
  · exact ⟨_, rfl, fun _ => rfl, fun hp => by simp at hp, fun h1 => by simp [h0] at h1⟩
  · have hc := causeFollowsPulse_frmStep s.par s.frm s.gen.gstate I
    exact ⟨_, rfl, fun h1 => by simp [h0] at h1, fun hp => hc.trans (if_pos hp), fun _ hp =>
      hc.trans (if_neg (Bool.eq_false_iff.1 hp))⟩

end Sys2Proof.Machine
end

section
/-! SUPPORT. The FrameBuffer over a cycle: what a cycle stores, and that a cycle looks at no byte but those of the frame in progress. -/

namespace Sys2Proof.Machine

/-! What the framer's part of a cycle stores (R62). -/

/-- A store that answers has kept FB, or put one byte at an address that exists. -/
theorem storeByte_cases {P : Params} {m fb : Memory} {w : Option (Nat × Byte)} (h : storeByte P m w = .ok fb) :
    (w = none ∧ fb = m) ∨ ∃ a b, w = some (a, b) ∧ a < P.fbCapacity ∧ fb = m.write a b := by
  cases w with
  | none =>
    injection h with h
    exact .inl ⟨rfl, h.symm⟩
  | some ab =>
    obtain ⟨a, b⟩ := ab
    simp only [storeByte, memWrite] at h
    split_ifs at h with ha
    injection h with h
    exact .inr ⟨a, b, rfl, ha, h.symm⟩

/-- An address that reads differently after a store is the one stored at, and it reads as the byte stored. -/
theorem storeByte_changes {P : Params} {m fb : Memory} {w : Option (Nat × Byte)} (h : storeByte P m w = .ok fb) {a : Nat}
    (hne : fbByte fb a ≠ fbByte m a) : w = some (a, fbByte fb a) ∧ a < P.fbCapacity := by
  rcases storeByte_cases h with ⟨-, rfl⟩ | ⟨k, b, rfl, hk, rfl⟩
  · exact absurd rfl hne
  · have hak : a = k := by
      by_contra hn
      exact hne (fbByte_write_other m k a b hn)
    subst hak
    exact ⟨by rw [fbByte_write_same], hk⟩

/-- Settles O51: a reset cycle keeps FB, and any other stores what the framer gives it to store. -/
theorem frameBufferWrites : Obligations.FrameBufferWrites := by
  intro s t I a h hne
  rcases cycle_next I s t h with ⟨-, rfl⟩ | ⟨h0, g, fb, st, -, hw, -, -, -, rfl⟩
  · exact absurd rfl hne
  · obtain ⟨hwrite, ha⟩ := storeByte_changes hw hne
    obtain ⟨hrx, hplace⟩ := frmStep_write _ _ _ _ _ _ hwrite
    exact ⟨h0, ⟨_, hrx, rfl⟩, hplace.imp_right fun ⟨hs, hwr, _⟩ => ⟨hs, hwr, ha⟩⟩

/-! Two FrameBuffers beside the same registers (R61, R65). -/

/-- The phases in which bytes stored before still count: a frame is being received or transmitted. -/
abbrev frameHeld (F : Framer) : Prop := F.fstate = .recv ∨ F.fstate = .xmit

/-- Two FrameBuffers read alike on the bytes the frame in progress has stored. -/
abbrev frameAgrees (F : Framer) (m m' : Memory) : Prop := frameHeld F → ∀ a, a < F.wr → fbByte m' a = fbByte m a

/-- A duration is read from two bytes and nothing else of FB (R63). -/
theorem readDuration_congr {P : Params} {m m' : Memory} {a : Nat} (h0 : fbByte m' a = fbByte m a)
    (h1 : fbByte m' (a + 1) = fbByte m (a + 1)) : readDuration P m' a = readDuration P m a := by
  simp only [readDuration, memRead, h0, h1]

/-- The generator reads only durations that its frame has stored (R70, R187). -/
theorem genStep_congr {P : Params} {F : Framer} {G : Generator} (h : GeneratorInv P F G) {m m' : Memory}
    (hm : frameAgrees F m m') : genStep P m' G = genStep P m G := by
  cases hs : G.gstate with
  | idle => rw [genStep_idle P m' G hs, genStep_idle P m G hs]
  | run =>
    obtain ⟨hx, -, -, hseg, -, -, hrd, -⟩ := h.legal hs
    have hst := h.stored hs
    by_cases hc : G.c.toNat + 1 < peff G
    · rw [genStep_phase P m' G hs hc, genStep_phase P m G hs hc]
    rw [genStep_tick P m' G hs hc, genStep_tick P m G hs hc]
    by_cases hl : G.seg + 1 = 2 * G.gpc
    · simp only [carrierTick, advance, if_pos hl]
    · have hd : readDuration P m' G.rd = readDuration P m G.rd :=
        readDuration_congr (hm (.inr hx) _ (by omega)) (hm (.inr hx) _ (by omega))
      simp only [carrierTick, advance, hd]

/-- A start reads only the duration at its base (R181). -/
theorem startGen_congr {P : Params} {m m' : Memory} {st : Start} (G : Generator)
    (h : readDuration P m' st.pb = readDuration P m st.pb) : startGen P m' st G = startGen P m st G := by
  simp only [startGen, startNormal, h]

/-- The start the framer issues reads only bytes of the frame it has just accepted, the last of them stored in this cycle
(R64, R141). -/
theorem startOrKeep_congr {P : Params} {F : Framer} (h : FramerInv P F) (gs : GState) (I : Input) (G : Generator) {m m' : Memory}
    (hm : frameAgrees (frmStep P F gs I).frm m m') :
    startOrKeep P m' (frmStep P F gs I).start G = startOrKeep P m (frmStep P F gs I).start G := by
  cases hst : (frmStep P F gs I).start with
  | none => rfl
  | some st =>
    obtain ⟨hpc, -, -, hsum, -, e, -⟩ := start_operands h gs I st hst
    have hread : ∀ a, a < F.wr + 1 → fbByte m' a = fbByte m a := by
      rw [e] at hm
      exact hm (.inr rfl)
    exact startGen_congr G (readDuration_congr (hread _ (by omega)) (hread _ (by omega)))

/-- Where the result holds a frame, every byte below its cursor is one the frame `F` had stored already or the one this cycle stores. -/
def bytesCovered (F : Framer) (r : FrmResult) : Prop :=
  frameHeld r.frm → ∀ a, a < r.frm.wr → (frameHeld F ∧ a < F.wr) ∨ ∃ b, r.write = some (a, b)

/-- A result that holds no frame owes nothing. -/
theorem bytesCovered_closed {F : Framer} {r : FrmResult} (h : ¬ frameHeld r.frm) : bytesCovered F r := fun hr => absurd hr h

/-- A result with the frame's cursor where it was. -/
theorem bytesCovered_kept {F : Framer} {r : FrmResult} (hF : frameHeld F) (h : r.frm.wr = F.wr) : bytesCovered F r :=
  fun _ _ ha => .inl ⟨hF, h ▸ ha⟩

/-- A result whose cursor counts the byte it stores. -/
theorem bytesCovered_counted {F : Framer} {r : FrmResult} {b : Byte} (hF : frameHeld F) (h : r.frm.wr = F.wr + 1)
    (hw : r.write = some (F.wr, b)) : bytesCovered F r := by
  intro _ a ha
  by_cases hlt : a < F.wr
  · exact .inl ⟨hF, hlt⟩
  · obtain rfl : a = F.wr := by omega
    exact .inr ⟨b, hw⟩

theorem bytesCovered_reject {F : Framer} {c : Cause} {F' : Framer} {w : Option (Nat × Byte)} : bytesCovered F (reject c F' w) :=
  bytesCovered_closed (by simp)

theorem bytesCovered_firstByte (F : Framer) (b : Byte) : bytesCovered F (firstByte F b) := by
  have first : ∀ r : FrmResult, r.frm.wr = 1 → r.write = some (0, b) → bytesCovered F r := by
    intro r h hw _ a ha
    obtain rfl : a = 0 := by omega
    exact .inr ⟨b, hw⟩
  simp only [firstByte]
  split_ifs
  · exact first _ rfl rfl
  · exact first _ rfl rfl
  · exact bytesCovered_reject

theorem bytesCovered_recvByte (P : Params) {F : Framer} (h : F.fstate = .recv) (b : Byte) : bytesCovered F (recvByte P F b) := by
  apply recvByte_elim P F b (bytesCovered F)
  case reserved => intro _; exact bytesCovered_kept (.inl h) rfl
  case overflow | badPayload | overlong | badCount | badCarrier => intros; exact bytesCovered_reject
  all_goals intros; exact bytesCovered_counted (.inl h) rfl rfl

theorem bytesCovered_guardTick (P : Params) {F : Framer} (h : F.fstate = .recv) : bytesCovered F (guardTick P F) := by
  unfold guardTick
  split_ifs
  · exact bytesCovered_reject
  · exact bytesCovered_kept (.inl h) rfl

theorem quarantineTick_closed (P : Params) {F : Framer} (h : F.fstate = .quar) : ¬ frameHeld (quarantineTick P F) := by
  unfold quarantineTick
  split_ifs <;> simp [h]

theorem bytesCovered_xmitWait {F : Framer} (h : F.fstate = .xmit) (gs : GState) : bytesCovered F (xmitWait F gs) := by
  cases gs with
  | run => exact bytesCovered_kept (.inr h) rfl
  | idle => exact bytesCovered_closed (by simp [xmitWait])

/-- A frame in progress holds no byte but those it has stored itself, so none from before it (R65). -/
theorem bytesCovered_frmStep (P : Params) (F : Framer) (gs : GState) (I : Input) : bytesCovered F (frmStep P F gs I) := by
  apply frmStep_elim P F gs I (bytesCovered F)
  case awaitQuiet => intro h _; exact bytesCovered_closed (by simp [h])
  case first => intro b _ _; exact bytesCovered_firstByte F b
  case fatal => intro h _; exact bytesCovered_kept (.inl h) rfl
  case byte => intro b h _ _; exact bytesCovered_recvByte P h b
  case guard => intro h _ _ _; exact bytesCovered_guardTick P h
  case recvQuiet => intro h _ _ _; exact bytesCovered_kept (.inl h) rfl
  case quarByte => intro _ h _; exact bytesCovered_closed (by simp [h])
  case quarTick => intro h _ _; exact bytesCovered_closed (quarantineTick_closed P h)
  case quarQuiet => intro h _ _; exact bytesCovered_closed (by simp [h])
  case xmit => intro h; exact bytesCovered_xmitWait h gs

/-- The same store into two FrameBuffers answers in both, and both read alike where they did before and where it stored. -/
theorem storeByte_congr {P : Params} {m fb : Memory} {w : Option (Nat × Byte)} (h : storeByte P m w = .ok fb) (m' : Memory) :
    ∃ fb', storeByte P m' w = .ok fb' ∧
      ∀ a, fbByte m' a = fbByte m a ∨ (∃ b, w = some (a, b)) → fbByte fb' a = fbByte fb a := by
  rcases storeByte_cases h with ⟨rfl, rfl⟩ | ⟨k, b, rfl, hk, rfl⟩
  · exact ⟨m', rfl, fun a ha => by simpa using ha⟩
  · refine ⟨m'.write k b, by simp [storeByte, memWrite, hk], fun a ha => ?_⟩
    by_cases hak : a = k
    · rw [hak, fbByte_write_same, fbByte_write_same]
    · have hm : fbByte m' a = fbByte m a := by simpa [Ne.symm hak] using ha
      rw [fbByte_write_other _ _ _ _ hak, fbByte_write_other _ _ _ _ hak, hm]

/-- The framer's store keeps two FrameBuffers alike on the frame in progress. -/
theorem storeByte_keeps_frameAgrees {P : Params} {F : Framer} (gs : GState) (I : Input) {m m' fb : Memory}
    (hm : frameAgrees F m m') (h : storeByte P m (frmStep P F gs I).write = .ok fb) :
    ∃ fb', storeByte P m' (frmStep P F gs I).write = .ok fb' ∧ frameAgrees (frmStep P F gs I).frm fb fb' := by
  obtain ⟨fb', hw, hread⟩ := storeByte_congr h m'
  exact ⟨fb', hw, fun hr a ha => hread a ((bytesCovered_frmStep P F gs I hr a ha).imp_left fun ⟨hF, hlt⟩ => hm hF a hlt)⟩

/-- Settles O56: the generator's step, the framer's store and a start each give the same from two FrameBuffers that agree on the frame
in progress, and the store leaves the two agreeing on it. -/
theorem oldBufferContentsUnobserved : Obligations.OldBufferContentsUnobserved := by
  rintro s ⟨⟨frm, gen, fb'⟩, ⟨par, script, trace⟩⟩ t I hinv rfl rfl rfl rfl hm h
  obtain ⟨-, hF, hG, -⟩ := (inv_iff s).1 hinv
  rcases cycle_next I s t h with ⟨h0, rfl⟩ | ⟨h0, g, fb, st, hg, hw, hst, hf, hl, rfl⟩
  · exact ⟨_, cycle_reset I _ h0, rfl, rfl, rfl, rfl, by simp [Framer.reset]⟩
  · obtain ⟨fb1, hw1, hm1⟩ := storeByte_keeps_frameAgrees s.gen.gstate I hm hw
    have hst1 := (startOrKeep_congr hF s.gen.gstate I g.gen hm1).trans hst
    exact ⟨_, cycle_ok I _ g fb1 st h0 ((genStep_congr hG hm).trans hg) hw1 hst1 hf hl, rfl, rfl, rfl, rfl, hm1⟩

end Sys2Proof.Machine
end

section
/-! SUPPORT. The decoder reads the encoder's bytes and no others: the settled statements on decoding (30_encoding.md R80 to R91). -/

namespace Sys2Proof

open Machine

/-- Settles O1: every row's encoding is read back where its bytes stand. -/
theorem wellFormedOperationsRoundTrip : Obligations.WellFormedOperationsRoundTrip :=
  fun _ _ h => decodeItem_encode h

/-- A byte rebuilt from its low bits and the bit 7 it is known to have. -/
theorem byteOf_low7 {b : Byte} {top : Bool} (h : bit7 b = top) : byteOf top (low7 b) = b := by
  subst h
  exact byteOf_bit7_low7 b

/-! What each decoder has read, written out again (R82 to R84, R88). -/

theorem decodeVarint_ok {bs left : List Byte} {v : Varint} (h : decodeVarint bs = .ok (v, left)) :
    varintBytes v ++ left = bs := by
  unfold decodeVarint at h
  split at h
  case h_1 => cases h
  case h_2 b rest =>
    split_ifs at h with hb
    · split at h
      · cases h
      · split_ifs at h with hb1
        cases h
        simp [varintBytes, byteOf_low7 hb, byteOf_low7 (Bool.eq_false_iff.2 hb1)]
    · cases h
      simp [varintBytes, byteOf_low7 (Bool.eq_false_iff.2 hb)]

theorem decodeDurations_ok {n : Nat} {bs left : List Byte} {ds : List (Byte × Byte)}
    (h : decodeDurations n bs = .ok (ds, left)) : durationBytes ds ++ left = bs := by
  induction n, bs using decodeDurations.induct generalizing ds with
  | case1 bs => cases h; rfl
  | case2 n b0 b1 rest ds' left' e ih =>
    rw [decodeDurations, e] at h
    cases h
    simp [durationBytes, ih e]
  | case3 n b0 b1 rest _ e => simp [decodeDurations, e] at h
  | case4 => simp [decodeDurations] at h

theorem decodeIr_ok {bs left : List Byte} {i : Instr} (h : decodeIr bs = .ok (i, left)) :
    encodeBytes i ++ left = Config.kindIr :: bs := by
  unfold decodeIr at h
  split at h
  · cases h
  next n bs1 hn =>
  split at h
  · cases h
  next cp bs2 hcp =>
  split at h
  · cases h
  next ch bs3 hch =>
  split at h
  · cases h
  next ds _ hds =>
  cases h
  rw [← decodeVarint_ok hn, ← decodeVarint_ok hcp, ← decodeVarint_ok hch, ← decodeDurations_ok hds]
  simp [encodeBytes, encode, Config.kindIr]

theorem decodeCtrl_ok {k : Byte} (hk : k = Config.kindReset ∨ k = Config.kindKeepalive) {bs left : List Byte} {i : Instr}
    (h : decodeCtrl k bs = .ok (i, left)) : encodeBytes i ++ left = k :: bs := by
  cases bs with
  | nil => simp [decodeCtrl] at h
  | cons p rest =>
    simp only [decodeCtrl] at h
    by_cases hp : p = 0x00#8
    · rw [if_pos hp] at h
      rcases hk with rfl | rfl <;> cases h <;> rw [hp] <;> rfl
    · rw [if_neg hp] at h
      rcases hk with rfl | rfl <;> cases h <;> rfl

theorem decodeMessage_ok {bs left : List Byte} {i : Instr} (h : decodeMessage bs = .ok (i, left)) :
    encodeBytes i ++ left = bs := by
  cases bs with
  | nil => simp [decodeMessage] at h
  | cons k rest =>
    simp only [decodeMessage] at h
    split_ifs at h with hir hctl
    · exact hir ▸ decodeIr_ok h
    · exact decodeCtrl_ok hctl h
    · cases h
      rfl

theorem decodeVarintForm_ok {bs left : List Byte} {i : Instr} (h : decodeVarintForm bs = .ok (i, left)) :
    encodeBytes i ++ left = bs := by
  unfold decodeVarintForm at h
  split at h
  case h_1 => cases h
  case h_2 b rest =>
    split_ifs at h with hb
    · split at h
      · cases h
      · split_ifs at h with hb1
        · cases h
          simp [encodeBytes, encode, byteOf_low7 hb, byteOf_low7 hb1]
        · cases h
          simp [encodeBytes, encode, byteOf_low7 hb, byteOf_low7 (Bool.eq_false_iff.2 hb1)]
    · cases h
      simp [encodeBytes, encode, byteOf_low7 (Bool.eq_false_iff.2 hb)]

theorem decodeDurationForm_ok {e : DurationEncoding} {bs left : List Byte} {i : Instr}
    (h : decodeDurationForm e bs = .ok (i, left)) : encodeBytes i ++ left = bs := by
  unfold decodeDurationForm at h
  split at h
  · cases e with
    | split7 =>
      cases h
      simp [encodeBytes, encode, byteOf_bit7_low7]
    | le16 =>
      cases h
      rfl
  · cases h

/-- Settles O2: at each place the form read is made of exactly the bytes it was read from. -/
theorem decodingDropsNoBit : Obligations.DecodingDropsNoBit := by
  intro p bs i left h
  cases p with
  | message => exact decodeMessage_ok h
  | varint => exact decodeVarintForm_ok h
  | duration e => exact decodeDurationForm_ok h
  | byte => cases h

/-- Settles O3: the words are literal, so the decoder is evaluated on them. -/
theorem writtenOutWordsDecode : Obligations.WrittenOutWordsDecode := by
  unfold Obligations.WrittenOutWordsDecode
  decide

end Sys2Proof
end

section
/-! SUPPORT. FB_OVERFLOW: where it is pulsed, and how far the cursor of an open frame gets. -/

namespace Sys2Proof.Machine

/-- FB_OVERFLOW is pulsed only for a byte in RECV with FB full (R134, R221). -/
theorem frmStep_fbOverflow {P : Params} {F : Framer} {gs : GState} {I : Input}
    (h : (frmStep P F gs I).pulses.rejectCause = .fbOverflow) : F.fstate = .recv ∧ F.wr = P.fbCapacity := by
  revert h
  apply frmStep_elim P F gs I fun r => r.pulses.rejectCause = .fbOverflow → F.fstate = .recv ∧ F.wr = P.fbCapacity
  case byte =>
    intro b hs _ _ h
    refine ⟨hs, ?_⟩
    revert h
    apply recvByte_elim P F b fun r => r.pulses.rejectCause = .fbOverflow → F.wr = P.fbCapacity
    case overflow => intro hw _; exact hw
    all_goals intros; simp_all [acceptCtrl, acceptIr]
  case first => intro b _ _; simp only [firstByte]; split_ifs <;> simp
  case guard => intro _ _ _ _; simp only [guardTick]; split_ifs <;> simp
  case xmit => intro _; cases gs <;> simp [xmitWait]
  all_goals intros; simp_all [fatalPath]

/-- While a frame is open its bytes number less than the longest frame has: three fields of two bytes behind the kind byte, and four
bytes for each pulse (R86). -/
theorem FramerInv.wr_lt_longest {P : Params} {F : Framer} (h : FramerInv P F) (hs : F.fstate = .recv) :
    F.wr < 7 + 4 * P.maxPulses := by
  obtain ⟨hpc, -⟩ := h.ranges
  obtain ⟨-, hF⟩ := h.opened hs
  have hpartial := partialBytes_le F
  cases hf : F.field <;> simp only [fieldInv, hf] at hF <;> omega

/-- Settles O48: FB_OVERFLOW needs the cursor at the end of FB, and in RECV it stands short of the longest frame's end. -/
theorem fullCapacityNeverOverflows : Obligations.FullCapacityNeverOverflows := by
  intro s t I hinv hcap h
  obtain ⟨-, hF, -, -⟩ := (inv_iff s).1 hinv
  rcases cycle_next I s t h with ⟨-, rfl⟩ | ⟨-, g, fb, st, -, -, -, -, -, rfl⟩
  · exact ⟨_, rfl, by simp⟩
  · refine ⟨_, rfl, fun hover => ?_⟩
    obtain ⟨hs, hw⟩ := frmStep_fbOverflow hover
    have hlt := hF.wr_lt_longest hs
    omega

end Sys2Proof.Machine
end

section
/-! SUPPORT. A delivery whose bytes the framer stores one behind the other: how such deliveries compose, and the deliveries of a kind
byte, a header field, a run of duration bytes and the byte that ends the frame. -/

namespace Sys2Proof.Machine

/-! Bytes held one behind the other. -/

theorem holdsFrom_append {m : Memory} {a : Nat} {bs cs : List Byte} :
    holdsFrom m a (bs ++ cs) ↔ holdsFrom m a bs ∧ holdsFrom m (a + bs.length) cs := by
  induction bs generalizing a with
  | nil => simp [holdsFrom]
  | cons b bs ih =>
    simp only [List.cons_append, holdsFrom, ih, List.length_cons, and_assoc]
    rw [show a + 1 + bs.length = a + (bs.length + 1) by omega]

/-- Bytes are held as long as nothing is written where they lie. -/
theorem holdsFrom_congr {m m' : Memory} {a : Nat} {bs : List Byte}
    (h : ∀ x, a ≤ x → x < a + bs.length → fbByte m' x = fbByte m x) (hm : holdsFrom m a bs) : holdsFrom m' a bs := by
  induction bs generalizing a with
  | nil => trivial
  | cons b bs ih =>
    obtain ⟨hb, hbs⟩ := hm
    rw [List.length_cons] at h
    exact ⟨(h a le_rfl (by omega)).trans hb, ih (fun x h1 h2 => h x (by omega) (by omega)) hbs⟩

/-! Deliveries that store. -/

/-- The delivery of `bs` to `s` goes through `t`: the bytes lie in FB from `a` on and every other byte reads as before, the cycles
have pulsed `ps`, and what stands around the block is kept. -/
structure Stores (s : State) (a : Nat) (bs : List Byte) (ps : List Pulses) (t : State) : Prop where
  runs : ∀ rest, deliver (bs ++ rest) s = deliver rest t
  par : t.par = s.par
  script : t.script = s.script
  held : holdsFrom t.fb a bs
  kept : ∀ x, x < a ∨ a + bs.length ≤ x → fbByte t.fb x = fbByte s.fb x
  pulses : pulsesSince s t ps

theorem Stores.bytesKept {s t : State} {a : Nat} {bs : List Byte} {ps : List Pulses} (h : Stores s a bs ps t) :
    bytesKept s t (List.range' a bs.length) :=
  fun x hx => h.kept x (by rw [List.mem_range'_1] at hx; omega)

theorem Stores.restKept {s t : State} {a : Nat} {bs : List Byte} {ps : List Pulses} (h : Stores s a bs ps t)
    (hgen : t.gen = s.gen) : restKept s t :=
  ⟨h.par, hgen, h.script⟩

theorem Stores.deliver_eq {s t : State} {a : Nat} {bs : List Byte} {ps : List Pulses} (h : Stores s a bs ps t) :
    deliver bs s = .next t := by
  simpa using h.runs []

/-- Deliveries follow one another. -/
theorem Stores.append {s t u : State} {a a' : Nat} {bs cs : List Byte} {ps qs : List Pulses} (h : Stores s a bs ps t)
    (h' : Stores t a' cs qs u) (ha : a' = a + bs.length) : Stores s a (bs ++ cs) (qs ++ ps) u := by
  subst ha
  refine ⟨fun rest => ?_, h'.par.trans h.par, h'.script.trans h.script, ?_, fun x hx => ?_, ?_⟩
  · rw [List.append_assoc, h.runs, h'.runs]
  · exact holdsFrom_append.2 ⟨holdsFrom_congr (fun x _ hx => h'.kept x (.inl hx)) h.held, h'.held⟩
  · rw [List.length_append] at hx
    exact (h'.kept x (by omega)).trans (h.kept x (by omega))
  · rw [pulsesSince, h'.pulses, h.pulses, List.append_assoc]

/-- The generator's two pulses are none of the framer's (R24), so clearing them leaves the framer's pulses as they are. -/
theorem clear_generator_pulses {p : Pulses} (h : framerPulses p) : { p with genDone := false, startErr := false } = p := by
  obtain ⟨-, -, -, -, -, hdone, herr⟩ := h
  cases p
  cases hdone
  cases herr
  rfl

/-- One byte: a cycle with the generator stopped in which the framer's part `r` stores the offered byte, whether or not it starts the
generator. -/
theorem stores_byte {s : State} {b : Byte} {a : Nat} {r : FrmResult} {st : GenResult} (hr : rxReady s.frm = true)
    (hi : s.gen.gstate = .idle) (ha : a < s.par.fbCapacity) (hf : frmStep s.par s.frm s.gen.gstate (offer b) = r)
    (hw : r.write = some (a, b)) (hst : startOrKeep s.par (s.fb.write a b) r.start s.gen = .ok st)
    (hq : st.genDone = false ∧ st.startErr = false) (hp : r.pulses.fatal = false) :
    ∃ t, Stores s a [b] [r.pulses] t ∧ t.frm = r.frm ∧ t.gen = st.gen ∧ t.fb = s.fb.write a b := by
  subst hf
  have hstore : storeByte s.par s.fb (frmStep s.par s.frm s.gen.gstate (offer b)).write = .ok (s.fb.write a b) := by
    simp [storeByte, hw, memWrite, ha]
  have hc := cycle_ok (offer b) s _ _ st rfl (genStep_idle _ _ _ hi) hstore hst hp (generatorLegal_idle _ _ _ hi)
  refine ⟨cycleResult s { gen := s.gen } (frmStep s.par s.frm s.gen.gstate (offer b)) (s.fb.write a b) st,
    ⟨fun rest => ?_, rfl, rfl, ⟨fbByte_write_same _ _ _, trivial⟩, fun x hx => ?_, ?_⟩, rfl, rfl, rfl⟩
  · rw [List.singleton_append, deliver_ready b rest s hr, hc, andThen_next]
  · exact fbByte_write_other _ _ _ _ (by simp at hx; omega)
  · simp [pulsesSince, hq, clear_generator_pulses (frmStep_pulses s.par s.frm s.gen.gstate (offer b))]

/-- One byte that is stored and starts nothing. -/
theorem stores_quiet {s : State} {b : Byte} {a : Nat} {r : FrmResult} (hr : rxReady s.frm = true)
    (hi : s.gen.gstate = .idle) (ha : a < s.par.fbCapacity) (hf : frmStep s.par s.frm s.gen.gstate (offer b) = r)
    (hw : r.write = some (a, b)) (hs : r.start = none) (hp : r.pulses.fatal = false) :
    ∃ t, Stores s a [b] [r.pulses] t ∧ t.frm = r.frm ∧ t.gen = s.gen := by
  obtain ⟨t, ht, hfrm, hgen, -⟩ := stores_byte hr hi ha hf hw (st := { gen := s.gen }) (by simp [startOrKeep, hs]) ⟨rfl, rfl⟩ hp
  exact ⟨t, ht, hfrm, hgen⟩

/-- A byte of an open frame with room for it (R134). -/
theorem stores_recv {s : State} {b : Byte} {r : FrmResult} (hs : s.frm.fstate = .recv) (hi : s.gen.gstate = .idle)
    (hw : s.frm.wr < s.par.fbCapacity) (hres : reservedField s.frm.field = false) (hf : recvByte s.par s.frm b = r)
    (hr : r.write = some (s.frm.wr, b)) (hst : r.start = none) (hp : r.pulses.fatal = false) :
    ∃ t, Stores s s.frm.wr [b] [r.pulses] t ∧ t.frm = r.frm ∧ t.gen = s.gen :=
  stores_quiet (ready_recv hs) hi hw ((frmStep_recv_byte _ _ _ _ b hs hres rfl).trans hf) hr hst hp

/-! The kind byte of a frame the block knows (R132). -/

/-- The framer behind a known kind byte. -/
def opened (F : Framer) (k : Byte) : Framer :=
  { F with fstate := .recv, field := if k = Config.kindIr then .pcount else .plen, vhave := false, kind := k, wr := 1, g := 0 }

theorem firstByte_known {F : Framer} {k : Byte} (hk : knownKind k = true) :
    firstByte F k = { frm := opened F k, write := some (0, k) } := by
  unfold firstByte opened
  by_cases hir : k = Config.kindIr
  · simp [hir]
  · have hctl : k = Config.kindReset ∨ k = Config.kindKeepalive := by simpa [knownKind, hir] using hk
    simp [hir, hctl]

theorem stores_kind {s : State} {k : Byte} (hk : knownKind k = true) (hs : s.frm.fstate = .await) (hi : s.gen.gstate = .idle)
    (hcap : 1 ≤ s.par.fbCapacity) : ∃ t, Stores s 0 [k] [{}] t ∧ t.frm = opened s.frm k ∧ t.gen = s.gen :=
  stores_quiet (ready_await hs) hi hcap ((frmStep_await_byte _ _ _ _ k hs rfl).trans (firstByte_known hk)) rfl rfl rfl

/-! A header field (R136 to R138). -/

/-- The fields of the IR header that hold a varint. -/
abbrev headerField (f : Field) : Prop := f = .pcount ∨ f = .cper ∨ f = .chigh

/-- What a header field does with its decoded value, the store left out; `F` has the value's last byte counted. -/
def headerValue (P : Params) (F : Framer) (v : V14) : FrmResult :=
  match F.field with
  | .pcount =>
    if 1 ≤ v.toNat ∧ v.toNat ≤ P.maxPulses then { frm := { F with pc := v.toNat, field := .cper } }
    else reject .badPulseCount F none
  | .cper => { frm := { F with cper := v, field := .chigh } }
  | .chigh =>
    if v ≤ F.cper then { frm := { F with chigh := v, field := .pairs, pbase := F.wr, need := 4 * F.pc } }
    else reject .badCarrier F none
  | .plen | .pairs | .reserved5 | .reserved6 | .reserved7 => { frm := F }

/-- A value starts nothing and is never fatal. -/
theorem headerValue_quiet (P : Params) (F : Framer) (v : V14) :
    (headerValue P F v).start = none ∧ (headerValue P F v).pulses.fatal = false := by
  unfold headerValue
  repeat' split
  all_goals simp

theorem headerValue_pcount {P : Params} {F : Framer} {v : V14} (h : F.field = .pcount) (hv : 1 ≤ v.toNat ∧ v.toNat ≤ P.maxPulses) :
    headerValue P F v = { frm := { F with pc := v.toNat, field := .cper } } := by
  simp [headerValue, h, hv]

theorem headerValue_badCount {P : Params} {F : Framer} {v : V14} (h : F.field = .pcount)
    (hv : ¬ (1 ≤ v.toNat ∧ v.toNat ≤ P.maxPulses)) : headerValue P F v = reject .badPulseCount F none := by
  rw [headerValue, h]
  exact if_neg hv

theorem headerValue_cper {P : Params} {F : Framer} {v : V14} (h : F.field = .cper) :
    headerValue P F v = { frm := { F with cper := v, field := .chigh } } := by
  simp [headerValue, h]

theorem headerValue_chigh {P : Params} {F : Framer} {v : V14} (h : F.field = .chigh) (hv : v ≤ F.cper) :
    headerValue P F v = { frm := { F with chigh := v, field := .pairs, pbase := F.wr, need := 4 * F.pc } } := by
  simp [headerValue, h, hv]

theorem headerValue_badCarrier {P : Params} {F : Framer} {v : V14} (h : F.field = .chigh) (hv : ¬ v ≤ F.cper) :
    headerValue P F v = reject .badCarrier F none := by
  rw [headerValue, h]
  exact if_neg hv

theorem reservedField_header {f : Field} (h : headerField f) : reservedField f = false := by
  rcases h with rfl | rfl | rfl <;> rfl

/-- RECV_BYTE at a header field: VSTEP, and what the field does with a value (R134, R136 to R138). -/
theorem recvByte_header {P : Params} {F : Framer} (b : Byte) (hf : headerField F.field) (hw : F.wr ≠ P.fbCapacity) :
    recvByte P F b = varintByte (counted F) b (some (F.wr, b)) fun F1 v =>
      { headerValue P F1 v with write := some (F.wr, b) } := by
  rcases hf with hf | hf | hf
  · rw [recvByte_pcount P F b hw hf, pcountByte, varintByte, varintByte]
    cases vstep (counted F).vhave (counted F).vlow b with
    | more | overlong => rfl
    | done v =>
      simp only [headerValue, counted, hf]
      split_ifs <;> rfl
  · rw [recvByte_cper P F b hw hf, cperByte, varintByte, varintByte]
    cases vstep (counted F).vhave (counted F).vlow b with
    | more | overlong => rfl
    | done v => simp only [headerValue, counted, hf]
  · rw [recvByte_chigh P F b hw hf, chighByte, varintByte, varintByte]
    cases vstep (counted F).vhave (counted F).vlow b with
    | more | overlong => rfl
    | done v =>
      simp only [headerValue, counted, hf]
      split_ifs <;> rfl

/-- The byte that completes a header value. -/
theorem recvByte_done {P : Params} {F : Framer} {b : Byte} {v : V14} (hf : headerField F.field) (hw : F.wr ≠ P.fbCapacity)
    (hv : vstep F.vhave F.vlow b = .done v) :
    recvByte P F b = { headerValue P { counted F with vhave := false } v with write := some (F.wr, b) } := by
  simp [recvByte_header b hf hw, varintByte, counted, hv]

/-- The first of two bytes of a header value. -/
theorem recvByte_more {P : Params} {F : Framer} {b : Byte} {lo : Group} (hf : headerField F.field) (hw : F.wr ≠ P.fbCapacity)
    (hv : vstep F.vhave F.vlow b = .more lo) :
    recvByte P F b = { frm := { counted F with vhave := true, vlow := lo }, write := some (F.wr, b) } := by
  simp [recvByte_header b hf hw, varintByte, counted, hv]

/-- A second byte that asks for a third (R110). -/
theorem recvByte_overlong {P : Params} {F : Framer} {b : Byte} (hf : headerField F.field) (hw : F.wr ≠ P.fbCapacity)
    (hv : vstep F.vhave F.vlow b = .overlong) :
    recvByte P F b = reject .varintOverlong (counted F) (some (F.wr, b)) := by
  simp [recvByte_header b hf hw, varintByte, counted, hv]

/-- The framer with a field's last byte counted, as the value is taken. -/
def fieldRead (F : Framer) (v : Varint) : Framer :=
  { F with
    vhave := false
    vlow := match v with
      | .one _ => F.vlow
      | .two l _ => l
    wr := F.wr + (varintBytes v).length
    g := 0 }

/-- The first of two bytes of a header value, delivered: its group is held. -/
theorem stores_field_first {s : State} {l : Group} (hs : s.frm.fstate = .recv) (hf : headerField s.frm.field)
    (hv : s.frm.vhave = false) (hi : s.gen.gstate = .idle) (hcap : s.frm.wr < s.par.fbCapacity) :
    ∃ t, Stores s s.frm.wr [byteOf true l] [{}] t ∧ t.frm = { counted s.frm with vhave := true, vlow := l } ∧ t.gen = s.gen :=
  stores_recv hs hi hcap (reservedField_header hf)
    (recvByte_more hf hcap.ne (by rw [hv]; exact vstep_first _ _)) rfl rfl rfl

/-- The byte that completes a header value, delivered. -/
theorem stores_field_last {s : State} {b : Byte} {v : V14} (hs : s.frm.fstate = .recv) (hf : headerField s.frm.field)
    (hi : s.gen.gstate = .idle) (hcap : s.frm.wr < s.par.fbCapacity) (hv : vstep s.frm.vhave s.frm.vlow b = .done v) :
    ∃ t, Stores s s.frm.wr [b] [(headerValue s.par { counted s.frm with vhave := false } v).pulses] t ∧
      t.frm = (headerValue s.par { counted s.frm with vhave := false } v).frm ∧ t.gen = s.gen := by
  obtain ⟨hst, hp⟩ := headerValue_quiet s.par { counted s.frm with vhave := false } v
  have h := stores_recv hs hi hcap (reservedField_header hf) (recvByte_done hf hcap.ne hv) rfl hst hp
  exact h

/-- A whole header field, of either form (R83). -/
theorem stores_field {s : State} {v : Varint} (hs : s.frm.fstate = .recv) (hf : headerField s.frm.field)
    (hv : s.frm.vhave = false) (hi : s.gen.gstate = .idle) (hcap : s.frm.wr + (varintBytes v).length ≤ s.par.fbCapacity) :
    ∃ t, Stores s s.frm.wr (varintBytes v)
        ((headerValue s.par (fieldRead s.frm v) (varintValue v)).pulses :: List.replicate ((varintBytes v).length - 1) {}) t ∧
      t.frm = (headerValue s.par (fieldRead s.frm v) (varintValue v)).frm ∧ t.gen = s.gen := by
  cases v with
  | one g => exact stores_field_last hs hf hi hcap (by rw [hv]; exact vstep_single _ _)
  | two l h =>
    have hcap : s.frm.wr + 2 ≤ s.par.fbCapacity := hcap
    obtain ⟨t, ht, hfrm, hgen⟩ := stores_field_first (l := l) hs hf hv hi (by omega)
    have hlast := stores_field_last (s := t) (b := byteOf false h) (v := join7 l h) (by rw [hfrm]; exact hs)
      (by rw [hfrm]; exact hf) (by rw [hgen]; exact hi) (by rw [hfrm, ht.par]; simp only [counted]; omega)
      (by rw [hfrm]; exact vstep_second _ _)
    obtain ⟨u, hu, ufrm, ugen⟩ := hlast
    rw [ht.par, hfrm] at hu ufrm
    exact ⟨u, ht.append hu rfl, ufrm, ugen.trans hgen⟩

theorem varintBytes_length_pos (v : Varint) : 1 ≤ (varintBytes v).length := by
  cases v <;> simp [varintBytes]

/-- The framer behind `carrier_period`. -/
def periodTaken (F : Framer) (cp : Varint) : Framer := { fieldRead F cp with cper := varintValue cp, field := .chigh }

theorem stores_period {s : State} {cp : Varint} (hs : s.frm.fstate = .recv) (hf : s.frm.field = .cper)
    (hv : s.frm.vhave = false) (hi : s.gen.gstate = .idle) (hcap : s.frm.wr + (varintBytes cp).length ≤ s.par.fbCapacity) :
    ∃ t, Stores s s.frm.wr (varintBytes cp) (List.replicate (varintBytes cp).length {}) t ∧ t.frm = periodTaken s.frm cp ∧
      t.gen = s.gen := by
  obtain ⟨t, ht, hfrm, hgen⟩ := stores_field hs (.inr (.inl hf)) hv hi hcap
  have hval := headerValue_cper (P := s.par) (v := varintValue cp) (show (fieldRead s.frm cp).field = .cper from hf)
  rw [hval] at ht hfrm
  rw [← List.replicate_succ, Nat.sub_add_cancel (varintBytes_length_pos cp)] at ht
  exact ⟨t, ht, hfrm, hgen⟩

/-! The header of an IR frame, up to a value that can be rejected. -/

/-- The framer as the value of `pulse_count` is taken. -/
def countRead (F : Framer) (n : Varint) : Framer := fieldRead (opened F Config.kindIr) n

/-- The framer behind a legal `pulse_count`. -/
def countTaken (F : Framer) (n : Varint) : Framer := { countRead F n with pc := (varintValue n).toNat, field := .cper }

/-- The framer as the value of `carrier_high_period` is taken. -/
def highRead (F : Framer) (n cp ch : Varint) : Framer := fieldRead (periodTaken (countTaken F n) cp) ch

/-- The kind byte and `pulse_count`, whatever its value. -/
theorem stores_count {s : State} {n : Varint} (hs : s.frm.fstate = .await) (hi : s.gen.gstate = .idle)
    (hcap : 1 + (varintBytes n).length ≤ s.par.fbCapacity) :
    ∃ t, Stores s 0 (Config.kindIr :: varintBytes n)
        ((headerValue s.par (countRead s.frm n) (varintValue n)).pulses :: List.replicate (varintBytes n).length {}) t ∧
      t.frm = (headerValue s.par (countRead s.frm n) (varintValue n)).frm ∧ t.gen = s.gen := by
  have hpos := varintBytes_length_pos n
  obtain ⟨t, ht, hfrm, hgen⟩ := stores_kind (k := Config.kindIr) rfl hs hi (by omega)
  have hcount := stores_field (s := t) (v := n) (by rw [hfrm]; rfl) (by rw [hfrm]; exact .inl rfl) (by rw [hfrm]; rfl)
    (by rw [hgen]; exact hi) (by rw [hfrm, ht.par]; exact hcap)
  obtain ⟨u, hu, ufrm, ugen⟩ := hcount
  rw [ht.par, hfrm] at hu ufrm
  have h := ht.append hu rfl
  rw [List.cons_append, List.cons_append, List.nil_append, ← List.replicate_succ', Nat.sub_add_cancel hpos] at h
  exact ⟨u, h, ufrm, ugen.trans hgen⟩

/-- The whole header behind a legal `pulse_count`, whatever the value of `carrier_high_period`. -/
theorem stores_header {s : State} {n cp ch : Varint} (hs : s.frm.fstate = .await) (hi : s.gen.gstate = .idle)
    (hn : 1 ≤ (varintValue n).toNat ∧ (varintValue n).toNat ≤ s.par.maxPulses)
    (hcap : 1 + (varintBytes n).length + (varintBytes cp).length + (varintBytes ch).length ≤ s.par.fbCapacity) :
    ∃ t, Stores s 0 (Config.kindIr :: (varintBytes n ++ varintBytes cp ++ varintBytes ch))
        ((headerValue s.par (highRead s.frm n cp ch) (varintValue ch)).pulses ::
          List.replicate ((varintBytes n).length + (varintBytes cp).length + (varintBytes ch).length) {}) t ∧
      t.frm = (headerValue s.par (highRead s.frm n cp ch) (varintValue ch)).frm ∧ t.gen = s.gen := by
  have hpos := varintBytes_length_pos ch
  obtain ⟨t, ht, tfrm, tgen⟩ := stores_count (n := n) hs hi (by omega)
  rw [headerValue_pcount rfl hn, ← List.replicate_succ] at ht
  replace tfrm : t.frm = countTaken s.frm n := by rw [tfrm, headerValue_pcount rfl hn]; rfl
  have twr : t.frm.wr = 1 + (varintBytes n).length := by rw [tfrm]; rfl
  have hperiod := stores_period (s := t) (cp := cp) (by rw [tfrm]; rfl) (by rw [tfrm]; rfl) (by rw [tfrm]; rfl)
    (by rw [tgen]; exact hi) (by rw [twr, ht.par]; omega)
  obtain ⟨u, hu, ufrm, ugen⟩ := hperiod
  have uwr : u.frm.wr = t.frm.wr + (varintBytes cp).length := by rw [ufrm]; rfl
  rw [tfrm] at ufrm
  have hhigh := stores_field (s := u) (v := ch) (by rw [ufrm]; rfl) (by rw [ufrm]; exact .inr (.inr rfl)) (by rw [ufrm]; rfl)
    (by rw [ugen, tgen]; exact hi) (by rw [uwr, twr, hu.par, ht.par]; omega)
  obtain ⟨v, hv, vfrm, vgen⟩ := hhigh
  rw [hu.par, ht.par, ufrm] at hv vfrm
  refine ⟨v, ?_, vfrm, vgen.trans (ugen.trans tgen)⟩
  have h := (ht.append hu (by rw [twr]; simp; omega)).append hv (by rw [← ufrm, uwr, twr]; simp; omega)
  simp only [List.cons_append, List.replicate_append_replicate] at h
  rwa [show (varintBytes ch).length - 1 + ((varintBytes cp).length + ((varintBytes n).length + 1)) =
    (varintBytes n).length + (varintBytes cp).length + (varintBytes ch).length by omega] at h

/-! Duration bytes (R139). -/

theorem stores_pair_byte {s : State} (b : Byte) (hs : s.frm.fstate = .recv) (hf : s.frm.field = .pairs)
    (hi : s.gen.gstate = .idle) (hcap : s.frm.wr < s.par.fbCapacity) (hn : s.frm.need ≠ 1) :
    ∃ t, Stores s s.frm.wr [b] [{}] t ∧ t.frm = { counted s.frm with need := s.frm.need - 1 } ∧ t.gen = s.gen := by
  have h : recvByte s.par s.frm b = { frm := { counted s.frm with need := s.frm.need - 1 }, write := some (s.frm.wr, b) } := by
    rw [recvByte_pairs _ _ b hcap.ne hf]
    simp [pairsByte, counted, hn]
  exact stores_recv hs hi hcap (by rw [hf]; rfl) h rfl rfl rfl

/-- Duration bytes short of the last one are stored as they come and counted. -/
theorem stores_pair_bytes {s : State} (b : Byte) (bs : List Byte) (hs : s.frm.fstate = .recv) (hf : s.frm.field = .pairs)
    (hi : s.gen.gstate = .idle) (hcap : s.frm.wr + bs.length < s.par.fbCapacity) (hn : bs.length + 1 < s.frm.need) :
    ∃ t, Stores s s.frm.wr (b :: bs) (List.replicate (bs.length + 1) {}) t ∧
      t.frm = { s.frm with need := s.frm.need - (bs.length + 1), wr := s.frm.wr + (bs.length + 1), g := 0 } ∧ t.gen = s.gen := by
  induction bs generalizing b s with
  | nil => exact stores_pair_byte b hs hf hi hcap (by simp at hn; omega)
  | cons c bs ih =>
    rw [List.length_cons] at hcap hn
    obtain ⟨t, ht, hfrm, hgen⟩ := stores_pair_byte b hs hf hi (by omega) (by omega)
    have hrest := ih (s := t) c (by rw [hfrm]; exact hs) (by rw [hfrm]; exact hf) (by rw [hgen]; exact hi)
      (by rw [hfrm, ht.par]; simp only [counted]; omega) (by rw [hfrm]; simp only; omega)
    obtain ⟨u, hu, ufrm, ugen⟩ := hrest
    rw [hfrm] at hu ufrm
    refine ⟨u, ?_, ?_, ugen.trans hgen⟩
    · simpa [← List.replicate_succ'] using ht.append hu rfl
    · rw [ufrm]
      simp [counted]
      omega

/-- The byte that ends the frame: the generator starts from the registers of the header, its first duration read from FB with this
byte in it (R141, R181). -/
theorem stores_last_byte {s : State} (b : Byte) (hs : s.frm.fstate = .recv) (hf : s.frm.field = .pairs)
    (hi : s.gen.gstate = .idle) (hcap : s.frm.wr < s.par.fbCapacity) (hn : s.frm.need = 1) (h1 : 1 ≤ s.frm.pc)
    (h2 : s.frm.pc ≤ s.par.maxPulses) (hpb : s.frm.pbase + 1 < s.par.fbCapacity) :
    ∃ t, Stores s s.frm.wr [b] [acceptPulses Config.kindIr] t ∧ t.frm = { counted s.frm with fstate := .xmit, need := 0 } ∧
      t.gen = { gstate := .run, seg := 0, c := 0#14, gP := s.frm.cper, gH := s.frm.chigh, gpc := s.frm.pc, rd := s.frm.pbase + 2,
                rem := segDuration s.par t.fb s.frm.pbase 0 } := by
  have h : recvByte s.par s.frm b = acceptIr { counted s.frm with need := 0 } (some (s.frm.wr, b)) := by
    rw [recvByte_pairs _ _ b hcap.ne hf]
    simp [pairsByte, counted, hn]
  have hst := startGen_ok s.par (s.fb.write s.frm.wr b) { pc := s.frm.pc, cp := s.frm.cper, ch := s.frm.chigh, pb := s.frm.pbase }
    s.gen h1 h2 hpb
  obtain ⟨t, ht, hfrm, hgen, hfb⟩ := stores_byte (ready_recv hs) hi hcap
    ((frmStep_recv_byte _ _ _ _ b hs (by rw [hf]; rfl) rfl).trans h) rfl hst ⟨rfl, rfl⟩ rfl
  exact ⟨t, ht, hfrm, by rw [hgen, hfb]; rfl⟩

/-- All the duration bytes still needed, two or more: the last one accepts the frame. -/
theorem stores_durations {s : State} {bs : List Byte} (hs : s.frm.fstate = .recv) (hf : s.frm.field = .pairs)
    (hi : s.gen.gstate = .idle) (hn : s.frm.need = bs.length) (h2 : 2 ≤ bs.length) (hcap : s.frm.wr + bs.length ≤ s.par.fbCapacity)
    (hpc : 1 ≤ s.frm.pc) (hmax : s.frm.pc ≤ s.par.maxPulses) (hpb : s.frm.pbase + 1 < s.par.fbCapacity) :
    ∃ t, Stores s s.frm.wr bs (acceptPulses Config.kindIr :: List.replicate (bs.length - 1) {}) t ∧
      t.frm = { s.frm with fstate := .xmit, need := 0, wr := s.frm.wr + bs.length, g := 0 } ∧
      t.gen = { gstate := .run, seg := 0, c := 0#14, gP := s.frm.cper, gH := s.frm.chigh, gpc := s.frm.pc, rd := s.frm.pbase + 2,
                rem := segDuration s.par t.fb s.frm.pbase 0 } := by
  obtain ⟨b, mid, c, rfl⟩ : ∃ b mid c, bs = b :: mid ++ [c] := by
    rcases bs with _ | ⟨b, bs⟩
    · simp at h2
    · rcases List.eq_nil_or_concat bs with rfl | ⟨mid, c, rfl⟩
      · simp at h2
      · exact ⟨b, mid, c, by simp⟩
  simp only [List.cons_append, List.length_cons, List.length_append, List.length_nil] at hn hcap
  obtain ⟨t, ht, hfrm, hgen⟩ := stores_pair_bytes b mid hs hf hi (by omega) (by omega)
  have hlast := stores_last_byte (s := t) c (by rw [hfrm]; exact hs) (by rw [hfrm]; exact hf) (by rw [hgen]; exact hi)
    (by rw [hfrm, ht.par]; simp only; omega) (by rw [hfrm]; simp only; omega) (by rw [hfrm]; exact hpc)
    (by rw [hfrm, ht.par]; exact hmax) (by rw [hfrm, ht.par]; exact hpb)
  obtain ⟨u, hu, ufrm, ugen⟩ := hlast
  rw [ht.par] at ugen
  rw [hfrm] at hu ufrm ugen
  refine ⟨u, ?_, ?_, ugen⟩
  · simpa using ht.append hu rfl
  · rw [ufrm]
    simp [counted, Nat.add_assoc]

end Sys2Proof.Machine
end

section
/-! SUPPORT. The forms of the stream, whole: a control frame, a varint field, a pair of durations. -/

namespace Sys2Proof.Machine

/-- Settles O29: the kind byte opens the frame and the payload byte rejects it. -/
theorem badPayloadRejected : Obligations.BadPayloadRejected := by
  intro s k p hp hs hi hcap
  have hk : knownKind (if k then 0x7F#8 else 0x7E#8) = true := by cases k <;> rfl
  have hir : (if k then 0x7F#8 else 0x7E#8) ≠ Config.kindIr := by cases k <;> decide
  obtain ⟨t, ht, hfrm, hgen⟩ := stores_kind hk hs hi (by omega)
  have hfield : t.frm.field = .plen := by simp [hfrm, opened, hir]
  have hwr : t.frm.wr = 1 := by rw [hfrm]; rfl
  have hroom : t.frm.wr < t.par.fbCapacity := by rw [hwr, ht.par]; omega
  have hbyte : recvByte t.par t.frm p = reject .badPayloadLen (counted t.frm) (some (t.frm.wr, p)) := by
    rw [recvByte_plen _ _ p hroom.ne hfield, plenByte, if_neg hp]
  obtain ⟨u, hu, ufrm, ugen⟩ := stores_recv (by rw [hfrm]; rfl) (by rw [hgen]; exact hi) hroom (by rw [hfield]; rfl) hbyte rfl rfl rfl
  have h := ht.append hu hwr
  obtain ⟨h0, h1, -⟩ := h.held
  refine ⟨u, h.deliver_eq, h.restKept (ugen.trans hgen), h0, h1, h.bytesKept, ?_, h.pulses⟩
  simp [ufrm, hfrm, reject, rejected, counted, opened, hir]

/-- Settles O33: each form's bytes at the field, VARINT_OVERLONG's second one rejecting. -/
theorem varintFormsInCarrierPeriod : Obligations.VarintFormsInCarrierPeriod := by
  intro s l h hs hf hv hi hcap
  have hh : headerField s.frm.field := .inr (.inl hf)
  refine ⟨?_, ?_, ?_⟩
  · obtain ⟨t, ht, hfrm, hgen⟩ := stores_period (cp := .one l) hs hf hv hi (by simp [varintBytes]; omega)
    obtain ⟨h0, -⟩ := ht.held
    refine ⟨t, ht.deliver_eq, ht.restKept hgen, h0, ht.bytesKept, ?_, ht.pulses⟩
    simp [hfrm, periodTaken, fieldRead, varintValue, varintBytes, hv]
  · obtain ⟨t, ht, hfrm, hgen⟩ := stores_period (cp := .two l h) hs hf hv hi hcap
    obtain ⟨h0, h1, -⟩ := ht.held
    refine ⟨t, ht.deliver_eq, ht.restKept hgen, h0, h1, ht.bytesKept, ?_, ht.pulses⟩
    simp [hfrm, periodTaken, fieldRead, varintValue, varintBytes, hv, ← join7_toNat]
  · obtain ⟨t, ht, hfrm, hgen⟩ := stores_field_first (l := l) hs hh hv hi (by omega)
    have hroom : t.frm.wr < t.par.fbCapacity := by rw [hfrm, ht.par]; simp only [counted]; omega
    have hh' : headerField t.frm.field := by rw [hfrm]; exact hh
    have hbyte := recvByte_overlong (b := byteOf true h) hh' hroom.ne (by rw [hfrm]; exact vstep_third _ _)
    obtain ⟨u, hu, ufrm, ugen⟩ := stores_recv (by rw [hfrm]; exact hs) (by rw [hgen]; exact hi) hroom (reservedField_header hh') hbyte
      rfl rfl rfl
    have hall := ht.append hu (by rw [hfrm]; rfl)
    obtain ⟨h0, h1, -⟩ := hall.held
    refine ⟨u, hall.deliver_eq, hall.restKept (ugen.trans hgen), h0, h1, hall.bytesKept, ?_, hall.pulses⟩
    simp [ufrm, hfrm, reject, rejected, counted]

/-- A pair with more to come is stored, has its value when it is read, and is counted. -/
theorem deliver_pair_inside {s : State} {e : DurationEncoding} {b0 b1 : Byte} {d : Nat} (hd : dur e b0 b1 = d)
    (hs : s.frm.fstate = .recv) (hf : s.frm.field = .pairs) (hi : s.gen.gstate = .idle) (hcap : s.frm.wr + 2 ≤ s.par.fbCapacity)
    (hn : 3 ≤ s.frm.need) :
    ∃ t, deliver [b0, b1] s = .next t ∧ restKept s t ∧ bytesKept s t [s.frm.wr, s.frm.wr + 1] ∧
      fbByte t.fb s.frm.wr = b0 ∧ fbByte t.fb (s.frm.wr + 1) = b1 ∧
      dur e (fbByte t.fb s.frm.wr) (fbByte t.fb (s.frm.wr + 1)) = d ∧
      t.frm = { s.frm with need := s.frm.need - 2, wr := s.frm.wr + 2, g := 0 } ∧ pulsesSince s t [{}, {}] := by
  obtain ⟨t, ht, hfrm, hgen⟩ := stores_pair_bytes b0 [b1] hs hf hi (by simp; omega) (by simp; omega)
  obtain ⟨h0, h1, -⟩ := ht.held
  exact ⟨t, ht.deliver_eq, ht.restKept hgen, ht.bytesKept, h0, h1, by rw [h0, h1, hd], hfrm, ht.pulses⟩

/-- The last pair of a frame is stored, has its value when it is read, and starts the generator. -/
theorem deliver_pair_last {s : State} {e : DurationEncoding} {b0 b1 : Byte} {d : Nat} (hd : dur e b0 b1 = d)
    (hs : s.frm.fstate = .recv) (hf : s.frm.field = .pairs) (hi : s.gen.gstate = .idle) (hcap : s.frm.wr + 2 ≤ s.par.fbCapacity)
    (hn : s.frm.need = 2) (hpc : 1 ≤ s.frm.pc) (hmax : s.frm.pc ≤ s.par.maxPulses) (hpb : s.frm.pbase + 1 < s.par.fbCapacity) :
    ∃ t, deliver [b0, b1] s = .next t ∧ t.par = s.par ∧ t.script = s.script ∧ bytesKept s t [s.frm.wr, s.frm.wr + 1] ∧
      fbByte t.fb s.frm.wr = b0 ∧ fbByte t.fb (s.frm.wr + 1) = b1 ∧
      dur e (fbByte t.fb s.frm.wr) (fbByte t.fb (s.frm.wr + 1)) = d ∧
      t.frm = { s.frm with fstate := .xmit, need := 0, wr := s.frm.wr + 2, g := 0 } ∧ t.gen.gstate = .run ∧
      pulsesSince s t [acceptPulses Config.kindIr, {}] := by
  obtain ⟨t, ht, hfrm, hgen⟩ := stores_durations (bs := [b0, b1]) hs hf hi hn le_rfl hcap hpc hmax hpb
  obtain ⟨h0, h1, -⟩ := ht.held
  exact ⟨t, ht.deliver_eq, ht.par, ht.script, ht.bytesKept, h0, h1, by rw [h0, h1, hd], hfrm, by rw [hgen], ht.pulses⟩

/-- SPLIT7 ignores the bits 7 (R118). -/
theorem dur_split7_byteOf (x0 x1 : Bool) (l h : Group) : dur .split7 (byteOf x0 l) (byteOf x1 h) = l.toNat + 128 * h.toNat := by
  simp [dur, join7_toNat]

/-- Settles O35: the framer stores a pair of either form without looking at it, so only the value read differs. -/
theorem durationFormsStored : Obligations.DurationFormsStored := by
  intro s x0 x1 l h b0 b1 hs hf hi hcap
  have hsplit := dur_split7_byteOf x0 x1 l h
  have hle : dur .le16 b0 b1 = b0.toNat + 256 * b1.toNat := join8_toNat b0 b1
  exact ⟨fun hn => ⟨deliver_pair_inside hsplit hs hf hi hcap hn, deliver_pair_inside hle hs hf hi hcap hn⟩,
    fun hn hpc hmax hpb =>
      ⟨deliver_pair_last hsplit hs hf hi hcap hn hpc hmax hpb, deliver_pair_last hle hs hf hi hcap hn hpc hmax hpb⟩⟩

end Sys2Proof.Machine
end

section
/-! SUPPORT. A whole IR frame: what its header and durations leave, and what a rejected value discards. -/

namespace Sys2Proof.Machine

/-- The framer behind a legal header: the durations begin at the cursor (R138). -/
def headerTaken (F : Framer) (n cp ch : Varint) : Framer :=
  { highRead F n cp ch with
    chigh := varintValue ch
    field := .pairs
    pbase := (highRead F n cp ch).wr
    need := 4 * (varintValue n).toNat }

theorem headerTaken_wr (F : Framer) (n cp ch : Varint) :
    (headerTaken F n cp ch).wr = 1 + (varintBytes n).length + (varintBytes cp).length + (varintBytes ch).length := rfl

theorem headerTaken_pbase (F : Framer) (n cp ch : Varint) :
    (headerTaken F n cp ch).pbase = 1 + (varintBytes n).length + (varintBytes cp).length + (varintBytes ch).length := rfl

/-- A header with legal values. -/
theorem stores_legal_header {s : State} {n cp ch : Varint} (hs : s.frm.fstate = .await) (hi : s.gen.gstate = .idle)
    (hn : 1 ≤ (varintValue n).toNat ∧ (varintValue n).toNat ≤ s.par.maxPulses) (hle : varintValue ch ≤ varintValue cp)
    (hcap : 1 + (varintBytes n).length + (varintBytes cp).length + (varintBytes ch).length ≤ s.par.fbCapacity) :
    ∃ t, Stores s 0 (Config.kindIr :: (varintBytes n ++ varintBytes cp ++ varintBytes ch))
        (List.replicate ((varintBytes n).length + (varintBytes cp).length + (varintBytes ch).length + 1) {}) t ∧
      t.frm = headerTaken s.frm n cp ch ∧ t.gen = s.gen := by
  obtain ⟨t, ht, hfrm, hgen⟩ := stores_header hs hi hn hcap
  rw [headerValue_chigh rfl hle] at ht hfrm
  exact ⟨t, ht, hfrm, hgen⟩

/-- A frame that is well formed and fits: its header, then its durations, the last of which accepts it (R157). -/
theorem stores_frame {s : State} {n cp ch : Varint} {ds : List (Byte × Byte)}
    (hwf : (Instr.irPattern n cp ch ds).wf s.par = true) (hs : s.frm.fstate = .await) (hi : s.gen.gstate = .idle)
    (hcap : (encodeBytes (.irPattern n cp ch ds)).length ≤ s.par.fbCapacity) :
    ∃ t, Stores s 0 (encodeBytes (.irPattern n cp ch ds))
        (acceptPulses Config.kindIr :: List.replicate ((encodeBytes (.irPattern n cp ch ds)).length - 1) {}) t ∧
      t.frm = { headerTaken s.frm n cp ch with
        fstate := .xmit, need := 0, wr := (headerTaken s.frm n cp ch).pbase + 4 * (varintValue n).toNat, g := 0 } ∧
      t.gen = { gstate := .run, seg := 0, c := 0#14, gP := varintValue cp, gH := varintValue ch, gpc := (varintValue n).toNat,
                rd := t.frm.pbase + 2, rem := segDuration s.par t.fb t.frm.pbase 0 } := by
  simp only [Instr.wf, Bool.and_eq_true, decide_eq_true_eq] at hwf
  obtain ⟨⟨⟨h1, h2⟩, hle⟩, hds⟩ := hwf
  have hdl : (durationBytes ds).length = 4 * (varintValue n).toNat := by
    rw [Laws.ByteCount.durationBytes_length, hds]; omega
  have hlen : (encodeBytes (.irPattern n cp ch ds)).length =
      1 + (varintBytes n).length + (varintBytes cp).length + (varintBytes ch).length + (durationBytes ds).length := by
    simp [encodeBytes, encode]; omega
  rw [hlen] at hcap ⊢
  obtain ⟨t, ht, tfrm, tgen⟩ := stores_legal_header hs hi ⟨h1, h2⟩ hle (by omega)
  have hdur := stores_durations (s := t) (bs := durationBytes ds) (by rw [tfrm]; rfl) (by rw [tfrm]; rfl) (by rw [tgen]; exact hi)
    (by rw [tfrm]; exact hdl.symm) (by omega) (by rw [tfrm, ht.par, headerTaken_wr]; exact hcap) (by rw [tfrm]; exact h1)
    (by rw [tfrm, ht.par]; exact h2) (by rw [tfrm, ht.par, headerTaken_pbase]; omega)
  obtain ⟨u, hu, ufrm, ugen⟩ := hdur
  rw [tfrm, ht.par] at ugen
  rw [tfrm, hdl] at ufrm
  refine ⟨u, ?_, ufrm, by rw [ugen, ufrm]; rfl⟩
  have h := ht.append hu (by rw [tfrm, headerTaken_wr]; simp; omega)
  rw [List.cons_append, List.cons_append, List.replicate_append_replicate] at h
  have hcount : (durationBytes ds).length - 1 + ((varintBytes n).length + (varintBytes cp).length + (varintBytes ch).length + 1) =
      1 + (varintBytes n).length + (varintBytes cp).length + (varintBytes ch).length + (durationBytes ds).length - 1 := by omega
  rw [hcount] at h
  exact h

/-- Settles O31: the whole frame is stored, and its header and durations leave the registers the spec lists. -/
theorem irPatternAccepted : Obligations.IrPatternAccepted := by
  intro s n cp ch ds hwf hs hi hcap
  obtain ⟨t, ht, hfrm, hgen⟩ := stores_frame hwf hs hi hcap
  refine ⟨t, ht.deliver_eq, ht.par, ht.script, ht.held, fun a ha => ht.kept a (.inr (by omega)), ?_⟩
  rw [hgen, hfrm]
  exact ⟨rfl, rfl, rfl, rfl, rfl, rfl, rfl, rfl, rfl, rfl, rfl, rfl, rfl, rfl, ht.pulses⟩

/-- In a quarantine with no silence counted yet, bytes are discarded and change nothing (R145). -/
theorem deliver_quarantine {s : State} (bs : List Byte) (hs : s.frm.fstate = .quar) (hq : s.frm.q = 0) (hi : s.gen.gstate = .idle) :
    ∃ t, deliver bs s = .next t ∧ restKept s t ∧ t.frm = s.frm ∧ t.fb = s.fb ∧ pulsesSince s t (List.replicate bs.length {}) := by
  induction bs generalizing s with
  | nil => exact ⟨s, rfl, ⟨rfl, rfl, rfl⟩, rfl, rfl, rfl⟩
  | cons b bs ih =>
    have hf : frmStep s.par s.frm s.gen.gstate (offer b) = { frm := s.frm } := by
      rw [frmStep_quar_byte _ _ _ _ b hs rfl, ← hq]
      rfl
    obtain ⟨t, ht, ⟨hpar, hgen, hscript⟩, hfrm, hfb, hps⟩ :=
      ih (s := cycleResult s { gen := s.gen } { frm := s.frm } s.fb { gen := s.gen }) hs hq hi
    refine ⟨t, ?_, ⟨hpar, hgen, hscript⟩, hfrm, hfb, ?_⟩
    · rw [deliver_ready b bs s (ready_quar hs), cycle_quiet s (offer b) _ rfl hi hf rfl rfl rfl]
      exact ht
    · rw [pulsesSince, hps, List.length_cons, List.replicate_succ', List.append_assoc]
      rfl

/-- A frame `bs` rejected behind its first `m` bytes `hd`: the rest of it is discarded. -/
theorem deliver_rejected {s t : State} {bs hd tl : List Byte} {F : Framer} {c : Cause} {m k : Nat}
    (h : Stores s 0 hd (rejectPulses c :: List.replicate k {}) t) (hfrm : t.frm = (reject c F none).frm) (hgen : t.gen = s.gen)
    (hi : s.gen.gstate = .idle) (hbs : bs = hd ++ tl) (hm : hd.length = m) :
    ∃ u, deliver bs s = .next u ∧ restKept s u ∧ u.frm.fstate = .quar ∧ u.frm.rejCause = c ∧ u.frm.q = 0 ∧
      (∀ a, m ≤ a → fbByte u.fb a = fbByte s.fb a) ∧
      pulsesSince s u (List.replicate (bs.length - m) ({} : Pulses) ++ rejectPulses c :: List.replicate k ({} : Pulses)) := by
  subst hbs hm
  have hdisc := deliver_quarantine (s := t) tl (by rw [hfrm]; rfl) (by rw [hfrm]; rfl) (by rw [hgen]; exact hi)
  obtain ⟨u, hu, ⟨hpar, ugen, hscript⟩, ufrm, ufb, hps⟩ := hdisc
  rw [hfrm] at ufrm
  refine ⟨u, (h.runs tl).trans hu, ⟨hpar.trans h.par, ugen.trans hgen, hscript.trans h.script⟩, by rw [ufrm]; rfl, by rw [ufrm]; rfl,
    by rw [ufrm]; rfl, fun a ha => ?_, ?_⟩
  · rw [ufb]
    exact h.kept a (.inr (by omega))
  · rw [pulsesSince, hps, h.pulses, List.append_assoc, List.length_append, Nat.add_sub_cancel_left]

/-- Settles O32: the header is stored up to the illegal value, whose last byte rejects, and the bytes behind it are discarded. -/
theorem irPatternIllegalHeaderRejected : Obligations.IrPatternIllegalHeaderRejected := by
  intro s n cp ch ds i len head hs hi
  refine ⟨fun hn hcap => ?_, fun h1 h2 hlt hcap => ?_⟩
  · obtain ⟨t, ht, hfrm, hgen⟩ := stores_count hs hi hcap
    rw [headerValue_badCount rfl hn] at ht hfrm
    exact deliver_rejected (bs := encodeBytes i) (tl := varintBytes cp ++ varintBytes ch ++ durationBytes ds) ht hfrm hgen hi
      (by simp [i, encodeBytes, encode, Config.kindIr]) (Nat.add_comm _ _)
  · obtain ⟨t, ht, hfrm, hgen⟩ := stores_header hs hi ⟨h1, h2⟩ hcap
    rw [headerValue_badCarrier rfl (BitVec.not_le.2 hlt)] at ht hfrm
    have hhead : head - 1 = (varintBytes n).length + (varintBytes cp).length + (varintBytes ch).length := by omega
    rw [hhead]
    exact deliver_rejected (bs := encodeBytes i) (tl := durationBytes ds) ht hfrm hgen hi rfl (by simp [head]; omega)

end Sys2Proof.Machine
end

section
/-! SUPPORT. The varint and duration encoders against their readers (40_varint_decoder.md R110 to R120). -/

namespace Sys2Proof.Machine

theorem byteOf_toNat (top : Bool) (g : Group) : (byteOf top g).toNat = 128 * top.toNat + g.toNat := by
  rw [byteOf, toNat_append_eq_add, BitVec.toNat_ofBool]
  rfl

/-! VDECODE reads a varint field (R83, R111), and only a varint field. -/

/-- The whole-sequence decode reads a field at the front, whatever is behind it. -/
theorem vdecode_varintBytes_append (f : Varint) (rest : List Byte) :
    vdecode (varintBytes f ++ rest) = .ok (varintValue f) (varintBytes f).length := by
  cases f with
  | one v => simp [varintBytes, varintValue, vdecode]
  | two l h => simp [varintBytes, varintValue, vdecode]

/-- A sequence that decodes begins with a field. -/
theorem exists_varintBytes_append_of_vdecode {s : List Byte} {v : V14} {n : Nat} (h : vdecode s = .ok v n) :
    ∃ f rest, s = varintBytes f ++ rest := by
  match s with
  | [] => cases h
  | b :: rest =>
    cases hb : bit7 b with
    | false => exact ⟨.one (low7 b), rest, by simp [varintBytes, byteOf_low7 hb]⟩
    | true =>
      match rest with
      | [] => simp [vdecode, vstep, hb] at h
      | b1 :: rest =>
        cases hb1 : bit7 b1 with
        | false => exact ⟨.two (low7 b) (low7 b1), rest, by simp [varintBytes, byteOf_low7 hb, byteOf_low7 hb1]⟩
        | true => simp [vdecode, vstep, hb, hb1] at h

/-- A field of one byte holds seven bits (R112). -/
theorem varintValue_le_of_length_one {f : Varint} (h : (varintBytes f).length = 1) : (varintValue f).toNat ≤ 127 := by
  cases f with
  | one v =>
    have := v.isLt
    simp only [varintValue, BitVec.toNat_setWidth]
    omega
  | two l h' => cases h

/-- Settles O8: what was read is a varint field, and a field is read the same in front of any bytes. -/
theorem sequenceDecodeBounds : Obligations.SequenceDecodeBounds := by
  intro s v n h
  obtain ⟨f, rest, rfl⟩ := exists_varintBytes_append_of_vdecode h
  rw [vdecode_varintBytes_append] at h
  cases h
  refine ⟨Nat.le_of_lt_succ (varintValue f).isLt, ?_, by simp, varintValue_le_of_length_one, fun rest' => ?_⟩
  · cases f with
    | one v => exact .inl rfl
    | two l h => exact .inr rfl
  · rw [List.take_left]
    exact vdecode_varintBytes_append f rest'

/-! VENC writes the canonical field (R83, R116). -/

theorem ofNat8_eq_byteOf {n : Nat} (h : n ≤ 127) : BitVec.ofNat 8 n = byteOf false (BitVec.ofNat 7 n) := by
  apply BitVec.eq_of_toNat_eq
  simp only [byteOf_toNat, BitVec.toNat_ofNat, Bool.toNat_false]
  omega

theorem or_ofNat8_eq_byteOf {n : Nat} (h : n ≤ 127) : 0x80#8 ||| BitVec.ofNat 8 n = byteOf true (BitVec.ofNat 7 n) := by
  have top : ∀ g : Group, 0x80#8 ||| byteOf false g = byteOf true g := by decide
  rw [ofNat8_eq_byteOf h, top]

theorem venc_eq_canonicalVarint (n : Nat) : venc n = (canonicalVarint n).map varintBytes := by
  unfold venc canonicalVarint
  split_ifs with h1 h2
  · rw [ofNat8_eq_byteOf h1]
    rfl
  · rw [or_ofNat8_eq_byteOf (by omega), ofNat8_eq_byteOf (by omega)]
    rfl
  · rfl

/-- The canonical field of a value in range has that value, and one byte just up to 127 (R113, R116). -/
theorem canonicalVarint_of_le {n : Nat} (h : n ≤ 16383) :
    ∃ f, canonicalVarint n = some f ∧ varintValue f = BitVec.ofNat 14 n ∧ ((varintBytes f).length = 1 ↔ n ≤ 127) := by
  by_cases h1 : n ≤ 127
  · refine ⟨.one (BitVec.ofNat 7 n), by simp [canonicalVarint, h1], ?_, iff_of_true rfl h1⟩
    apply BitVec.eq_of_toNat_eq
    simp only [varintValue, BitVec.toNat_setWidth, BitVec.toNat_ofNat]
    omega
  · refine ⟨.two (BitVec.ofNat 7 (n % 128)) (BitVec.ofNat 7 (n / 128)), by simp [canonicalVarint, h1, h], ?_,
      iff_of_false (by simp [varintBytes]) h1⟩
    apply BitVec.eq_of_toNat_eq
    simp only [varintValue, join7_toNat, BitVec.toNat_ofNat]
    omega

/-- Settles O4: the canonical field's bytes as numbers, bit 7 set in the first of two. -/
theorem varintEncoderBytes : Obligations.VarintEncoderBytes := by
  intro n
  refine ⟨fun h => ⟨BitVec.ofNat 8 n, by simp [venc, h], ?_⟩, fun h1 h2 => ?_, fun h => ?_⟩
  · exact Nat.mod_eq_of_lt (by omega)
  · refine ⟨_, _, (if_neg (by omega)).trans (if_pos h2), ?_, Nat.mod_eq_of_lt (by omega)⟩
    rw [or_ofNat8_eq_byteOf (by omega), byteOf_toNat, BitVec.toNat_ofNat, Bool.toNat_true]
    omega
  · rw [venc, if_neg (by omega), if_neg (by omega)]

/-- Settles O5: the encoder writes the canonical field, and the decoder reads every field. -/
theorem varintRoundTrip : Obligations.VarintRoundTrip := by
  intro n h
  obtain ⟨f, hf, hv, hl⟩ := canonicalVarint_of_le h
  have hd := vdecode_varintBytes_append f []
  rw [List.append_nil, hv] at hd
  exact ⟨varintBytes f, by rw [venc_eq_canonicalVarint, hf]; rfl, hd, hl⟩

/-! DUR reads a pair of bytes (R118), and DURENC writes one (R120). -/

theorem dur_split7_toNat (b0 b1 : Byte) : dur .split7 b0 b1 = b0.toNat % 128 + 128 * (b1.toNat % 128) := by
  simp only [dur, join7_toNat, low7_toNat]

theorem dur_le16_toNat (b0 b1 : Byte) : dur .le16 b0 b1 = b0.toNat + 256 * b1.toNat :=
  join8_toNat b0 b1

/-- Settles O9: the joined groups of SPLIT7 and the joined bytes of LE16, as numbers. -/
theorem durationValues : Obligations.DurationValues :=
  fun b0 b1 => ⟨dur_split7_toNat b0 b1, dur_le16_toNat b0 b1⟩

/-- Settles O10: both readings join the two groups. -/
theorem splitDurationReadsTwoByteVarints : Obligations.SplitDurationReadsTwoByteVarints :=
  fun l h => ⟨join7 l h, vdecode_varintBytes_append (.two l h) [], by rw [dur_split7_byteOf, join7_toNat]⟩

/-- Settles O6: the quotient and the remainder that DURENC writes are what DUR puts together. -/
theorem durationRoundTrip : Obligations.DurationRoundTrip := by
  intro d
  refine ⟨fun h => ⟨_, _, if_pos h, ?_⟩, fun h => if_neg (by omega), fun h => ⟨_, _, if_pos h, ?_⟩, fun h => if_neg (by omega)⟩
  · rw [dur_split7_toNat, BitVec.toNat_ofNat, BitVec.toNat_ofNat]
    omega
  · rw [dur_le16_toNat, BitVec.toNat_ofNat, BitVec.toNat_ofNat]
    omega

end Sys2Proof.Machine
end

section
/-! SUPPORT. The cycles in which only the framer moves, the generator stopped: a quiet framer, the two ticks, quarantine, the report of
a transmission's end (41_framer.md R133, R142, R145 to R148). -/

namespace Sys2Proof.Machine

/-- From `s` to `t` the framer alone has moved, in one cycle: to the registers `F`, with the pulses `p`. -/
structure FramerMoves (s t : State) (F : Framer) (p : Pulses) : Prop where
  rest : restKept s t
  fb : t.fb = s.fb
  frm : t.frm = F
  pulses : pulsesSince s t [p]

/-- A cycle in which the framer's part `r` stores and starts nothing does what `r` says. -/
theorem cycle_framerMoves {s : State} {I : Input} {r : FrmResult} (h0 : I.rst = false) (hi : s.gen.gstate = .idle)
    (hf : frmStep s.par s.frm s.gen.gstate I = r) (hw : r.write = none) (hs : r.start = none) (hp : r.pulses.fatal = false) :
    ∃ t, cycle I s = .next t ∧ FramerMoves s t r.frm r.pulses := by
  have hclear : framerPulses r.pulses := hf ▸ frmStep_pulses s.par s.frm s.gen.gstate I
  refine ⟨_, cycle_quiet s I r h0 hi hf hw hs hp, ⟨rfl, rfl, rfl⟩, rfl, rfl, ?_⟩
  rw [← clear_generator_pulses hclear]
  rfl

/-- Settles O40: XMIT_WAIT with the generator stopped. -/
theorem transmissionEndReported : Obligations.TransmissionEndReported := by
  intro s I h0 hs hi
  have hf : frmStep s.par s.frm s.gen.gstate I = xmitWait s.frm .idle := by rw [frmStep_xmit _ _ _ _ hs, hi]
  obtain ⟨t, ht, hrest, hfb, hfrm, hp⟩ := cycle_framerMoves h0 hi hf rfl rfl rfl
  exact ⟨t, ht, hfrm, hfb, hrest, hp⟩

/-- Settles O55: the framer's part of the cycle is empty, and an event that offers no byte is its cycle. -/
theorem quiescentStateUnchanged : Obligations.QuiescentStateUnchanged := by
  intro s gtick wedged hs hi
  obtain ⟨t, ht, hrest, hfb, hfrm, hp⟩ := cycle_framerMoves (I := { rst := false, rx := none, gtick := gtick, wedged := wedged }) rfl hi
    (frmStep_await_quiet _ _ _ _ hs rfl) rfl rfl rfl
  refine ⟨t, ht, hfrm, hfb, hrest, hp, by simp [hfrm, bgYield, hs], ?_, ?_⟩
  · rintro rfl
    exact (eventCycle_noByte _ s rfl).trans ht
  · rintro rfl rfl
    exact (eventCycle_noByte _ s rfl).trans ht

/-! GUARD_TICK (R142). -/

theorem guardTick_expired {P : Params} {F : Framer} (h : P.tInterbyte ≤ F.g + 1) : guardTick P F = reject .timeout F none :=
  if_pos h

theorem guardTick_counts {P : Params} {F : Framer} (h : F.g + 1 < P.tInterbyte) :
    guardTick P F = { frm := { F with g := F.g + 1 } } :=
  if_neg (Nat.not_le.2 h)

/-- GUARD_TICK stores and starts nothing and is not fatal. -/
theorem guardTick_quiet (P : Params) (F : Framer) :
    (guardTick P F).write = none ∧ (guardTick P F).start = none ∧ (guardTick P F).pulses.fatal = false := by
  unfold guardTick
  split_ifs <;> exact ⟨rfl, rfl, rfl⟩

theorem cycle_guardTick {s : State} (wedged : Bool) (hs : s.frm.fstate = .recv) (hres : reservedField s.frm.field = false)
    (hi : s.gen.gstate = .idle) :
    ∃ t, cycle { rst := false, rx := none, gtick := true, wedged := wedged } s = .next t ∧
      FramerMoves s t (guardTick s.par s.frm).frm (guardTick s.par s.frm).pulses := by
  obtain ⟨hw, hst, hp⟩ := guardTick_quiet s.par s.frm
  exact cycle_framerMoves rfl hi (frmStep_recv_quiet _ _ _ _ hs hres rfl) hw hst hp

/-- Settles O23: the tick is the framer's GUARD_TICK, which rejects or counts. -/
theorem guardTick_holds : Obligations.GuardTick := by
  intro s wedged hs hres hi
  obtain ⟨t, ht, hrest, hfb, hfrm, hp⟩ := cycle_guardTick wedged hs hres hi
  refine ⟨t, (eventCycle_noByte _ s rfl).trans ht, hrest, hfb, ?_⟩
  split_ifs with hT
  · rw [guardTick_expired hT] at hfrm hp
    exact ⟨hfrm, hp⟩
  · rw [guardTick_counts (Nat.not_le.1 hT)] at hfrm hp
    exact ⟨hfrm, hp⟩

/-! Quarantine (R145 to R147). -/

theorem quarantineTick_clears {P : Params} {F : Framer} (h : P.tClear ≤ F.q + 1) :
    quarantineTick P F = { F with fstate := .await, q := 0 } :=
  if_pos h

theorem quarantineTick_counts {P : Params} {F : Framer} (h : F.q + 1 < P.tClear) :
    quarantineTick P F = { F with q := F.q + 1 } :=
  if_neg (Nat.not_le.2 h)

theorem cycle_quarantineByte {s : State} (b : Byte) (gtick wedged : Bool) (hs : s.frm.fstate = .quar) (hi : s.gen.gstate = .idle) :
    ∃ t, cycle { rst := false, rx := some b, gtick := gtick, wedged := wedged } s = .next t ∧
      FramerMoves s t { s.frm with q := 0 } { transportReinit := wedged } :=
  cycle_framerMoves rfl hi (frmStep_quar_byte _ _ _ _ b hs rfl) rfl rfl rfl

theorem cycle_quarantineQuiet {s : State} (gtick wedged : Bool) (hs : s.frm.fstate = .quar) (hi : s.gen.gstate = .idle) :
    ∃ t, cycle { rst := false, rx := none, gtick := gtick, wedged := wedged } s = .next t ∧
      FramerMoves s t (if gtick then quarantineTick s.par s.frm else s.frm) { transportReinit := wedged } :=
  cycle_framerMoves rfl hi (frmStep_quar_quiet _ _ _ _ hs rfl) rfl rfl rfl

/-- Settles O21: the block is ready in quarantine, and the byte's cycle keeps all but the silence count. -/
theorem quarantineDiscardsBytes : Obligations.QuarantineDiscardsBytes := by
  intro s b gtick wedged hs hi
  obtain ⟨t, ht, hrest, hfb, hfrm, hp⟩ := cycle_quarantineByte b gtick wedged hs hi
  exact ⟨t, (eventCycle_ready _ s (ready_quar hs)).trans ht, hrest, hfb, hfrm, hp⟩

/-- Settles O24: the tick is Q_TICK, which ends the silence or counts. -/
theorem quarantineTick_holds : Obligations.QuarantineTick := by
  intro s wedged hs hi
  obtain ⟨t, ht, hrest, hfb, hfrm, hp⟩ := cycle_quarantineQuiet true wedged hs hi
  refine ⟨t, (eventCycle_noByte _ s rfl).trans ht, hrest, hfb, hp, ?_⟩
  split_ifs with hT
  · exact hfrm.trans (quarantineTick_clears hT)
  · exact hfrm.trans (quarantineTick_counts (Nat.not_le.1 hT))

/-- Settles O26: the pulse is the same whether or not a byte is accepted, and the framer does what it does without `wedged`. -/
theorem wedgedInQuarantine : Obligations.WedgedInQuarantine := by
  intro s acc gtick hs hi
  cases acc with
  | some b =>
    obtain ⟨t, ht, hrest, hfb, hfrm, hp⟩ := cycle_quarantineByte b gtick true hs hi
    exact ⟨t, (eventCycle_ready _ s (ready_quar hs)).trans ht, hrest, hfb, hp, fun _ => hfrm, nofun, nofun, nofun⟩
  | none =>
    obtain ⟨t, ht, hrest, hfb, hfrm, hp⟩ := cycle_quarantineQuiet gtick true hs hi
    refine ⟨t, (eventCycle_noByte _ s rfl).trans ht, hrest, hfb, hp, nofun, ?_, ?_, ?_⟩
    · rintro - rfl
      exact hfrm
    · rintro - rfl hT
      exact hfrm.trans (quarantineTick_counts hT)
    · rintro - rfl hT
      exact hfrm.trans (quarantineTick_clears hT)

/-- Settles O59: of the four ways a cycle in quarantine goes, a reset and a clearing tick lead out of it. -/
theorem quarantineExits : Obligations.QuarantineExits := by
  intro s t I h hs hne
  rcases cycle_next I s t h with ⟨h0, rfl⟩ | ⟨-, g, fb, st, -, -, -, -, -, rfl⟩
  · exact ⟨rfl, .inl h0⟩
  rw [cycleResult_frm] at hne ⊢
  cases hb : I.rx with
  | some b =>
    rw [frmStep_quar_byte _ _ _ _ b hs hb] at hne
    exact absurd hs hne
  | none =>
    rw [frmStep_quar_quiet _ _ _ _ hs hb] at hne ⊢
    cases hg : I.gtick with
    | false =>
      rw [hg] at hne
      exact absurd hs hne
    | true =>
      rw [hg] at hne
      by_cases hT : s.par.tClear ≤ s.frm.q + 1
      · rw [if_pos rfl, quarantineTick_clears hT]
        exact ⟨rfl, .inr ⟨rfl, rfl, hT, rfl⟩⟩
      · rw [if_pos rfl, quarantineTick_counts (Nat.not_le.1 hT)] at hne
        exact absurd hs hne

end Sys2Proof.Machine
end

section
/-! SUPPORT. The two timers of the framer run out (41_framer.md R164). -/

namespace Sys2Proof.Machine

/-- A register that each cycle with `I` counts up while `R` holds, and whose last count brings `D` about, gets there in as many cycles
as are left to its limit. -/
theorem cycles_timer {I : Input} {count : State → Nat} {lim : Nat} {R D : State → Prop}
    (counts : ∀ s, R s → count s + 1 < lim → ∃ t, cycle I s = .next t ∧ R t ∧ count t = count s + 1)
    (expires : ∀ s, R s → lim ≤ count s + 1 → ∃ t, cycle I s = .next t ∧ D t) {s : State} (hR : R s) (hlt : count s < lim) :
    ∃ t, cycles (List.replicate (lim - count s) I) s = .next t ∧ D t := by
  obtain ⟨n, hn⟩ : ∃ n, lim - count s = n + 1 := ⟨lim - count s - 1, by omega⟩
  rw [hn]
  induction n generalizing s with
  | zero =>
    obtain ⟨t, ht, hD⟩ := expires s hR (by omega)
    exact ⟨t, by simp [cycles, ht], hD⟩
  | succ n ih =>
    obtain ⟨u, hu, hRu, hcount⟩ := counts s hR (by omega)
    obtain ⟨t, ht, hD⟩ := ih hRu (by omega) (by omega)
    exact ⟨t, by rw [List.replicate_succ, cycles, hu, andThen_next, ht], hD⟩

/-- From `s` to `x` no more than the guard count has moved. -/
def onlyGuardCounted (s x : State) : Prop := restKept s x ∧ x.fb = s.fb ∧ x.frm = { s.frm with g := x.frm.g }

/-- From `s` to `x` no more than the silence count has moved. -/
def onlySilenceCounted (s x : State) : Prop := restKept s x ∧ x.fb = s.fb ∧ x.frm = { s.frm with q := x.frm.q }

section Gticks

variable {s x : State}

theorem gtick_countsGuard (hs : s.frm.fstate = .recv) (hres : reservedField s.frm.field = false) (hi : s.gen.gstate = .idle)
    (hx : onlyGuardCounted s x) (hg : x.frm.g + 1 < s.par.tInterbyte) :
    ∃ t, cycle gtickOnly x = .next t ∧ onlyGuardCounted s t ∧ t.frm.g = x.frm.g + 1 := by
  obtain ⟨⟨hpar, hgen, hscript⟩, hfb, hfrm⟩ := hx
  obtain ⟨t, ht, ⟨tpar, tgen, tscript⟩, tfb, tfrm, -⟩ :=
    cycle_guardTick (s := x) false (by rw [hfrm]; exact hs) (by rw [hfrm]; exact hres) (by rw [hgen]; exact hi)
  rw [guardTick_counts (by rw [hpar]; exact hg)] at tfrm
  refine ⟨t, ht, ⟨⟨tpar.trans hpar, tgen.trans hgen, tscript.trans hscript⟩, tfb.trans hfb, ?_⟩, by rw [tfrm]⟩
  rw [tfrm, hfrm]

theorem gtick_expiresGuard (hs : s.frm.fstate = .recv) (hres : reservedField s.frm.field = false) (hi : s.gen.gstate = .idle)
    (hx : onlyGuardCounted s x) (hg : s.par.tInterbyte ≤ x.frm.g + 1) :
    ∃ t, cycle gtickOnly x = .next t ∧ t.frm = rejected .timeout s.frm ∧ t.fb = s.fb := by
  obtain ⟨⟨hpar, hgen, -⟩, hfb, hfrm⟩ := hx
  obtain ⟨t, ht, -, tfb, tfrm, -⟩ :=
    cycle_guardTick (s := x) false (by rw [hfrm]; exact hs) (by rw [hfrm]; exact hres) (by rw [hgen]; exact hi)
  rw [guardTick_expired (by rw [hpar]; exact hg)] at tfrm
  refine ⟨t, ht, ?_, tfb.trans hfb⟩
  rw [tfrm, hfrm]
  rfl

theorem gtick_countsSilence (hs : s.frm.fstate = .quar) (hi : s.gen.gstate = .idle) (hx : onlySilenceCounted s x)
    (hq : x.frm.q + 1 < s.par.tClear) :
    ∃ t, cycle gtickOnly x = .next t ∧ onlySilenceCounted s t ∧ t.frm.q = x.frm.q + 1 := by
  obtain ⟨⟨hpar, hgen, hscript⟩, hfb, hfrm⟩ := hx
  obtain ⟨t, ht, ⟨tpar, tgen, tscript⟩, tfb, tfrm, -⟩ :=
    cycle_quarantineQuiet (s := x) true false (by rw [hfrm]; exact hs) (by rw [hgen]; exact hi)
  rw [if_pos rfl, quarantineTick_counts (by rw [hpar]; exact hq)] at tfrm
  refine ⟨t, ht, ⟨⟨tpar.trans hpar, tgen.trans hgen, tscript.trans hscript⟩, tfb.trans hfb, ?_⟩, by rw [tfrm]⟩
  rw [tfrm, hfrm]

theorem gtick_expiresSilence (hs : s.frm.fstate = .quar) (hi : s.gen.gstate = .idle) (hx : onlySilenceCounted s x)
    (hq : s.par.tClear ≤ x.frm.q + 1) :
    ∃ t, cycle gtickOnly x = .next t ∧ t.frm = { s.frm with fstate := .await, q := 0 } ∧ t.fb = s.fb := by
  obtain ⟨⟨hpar, hgen, -⟩, hfb, hfrm⟩ := hx
  obtain ⟨t, ht, -, tfb, tfrm, -⟩ :=
    cycle_quarantineQuiet (s := x) true false (by rw [hfrm]; exact hs) (by rw [hgen]; exact hi)
  rw [if_pos rfl, quarantineTick_clears (by rw [hpar]; exact hq)] at tfrm
  refine ⟨t, ht, ?_, tfb.trans hfb⟩
  rw [tfrm, hfrm]

end Gticks

/-- Settles O58: gticks alone count either timer up to its limit. -/
theorem timersExpire : Obligations.TimersExpire := by
  intro s hi
  have hrest : restKept s s := ⟨rfl, rfl, rfl⟩
  exact ⟨fun hs hres hg => cycles_timer (count := fun x => x.frm.g) (fun _ => gtick_countsGuard hs hres hi)
      (fun _ => gtick_expiresGuard hs hres hi) ⟨hrest, rfl, rfl⟩ hg,
    fun hs hq => cycles_timer (count := fun x => x.frm.q) (fun _ => gtick_countsSilence hs hi)
      (fun _ => gtick_expiresSilence hs hi) ⟨hrest, rfl, rfl⟩ hq⟩

end Sys2Proof.Machine
end

section
/-! SUPPORT. One byte of a frame, offered as an event with any gtick and wedged indication: the kind byte, the payload length, the
header values and the durations (41_framer.md R132 to R141), and where a start comes from (R160). -/

namespace Sys2Proof.Machine

/-- A byte of an open frame with room for it, which starts nothing (R134). -/
theorem evByte_recv {s : State} {b : Byte} {r : FrmResult} (gtick wedged : Bool) (hs : s.frm.fstate = .recv)
    (hi : s.gen.gstate = .idle) (hw : s.frm.wr < s.par.fbCapacity) (hres : reservedField s.frm.field = false)
    (hf : recvByte s.par s.frm b = r) (hr : r.write = some (s.frm.wr, b)) (hst : r.start = none) (hp : r.pulses.fatal = false) :
    ∃ t, exec (.evByte b gtick wedged) s = .next t ∧ restKept s t ∧ fbByte t.fb s.frm.wr = b ∧ bytesKept s t [s.frm.wr] ∧
      t.frm = r.frm ∧ pulsesSince s t [{ r.pulses with genDone := false, startErr := false }] :=
  evByte_stores s b gtick wedged s.frm.wr r (ready_recv hs) hi hw ((frmStep_recv_byte _ _ _ _ b hs hres rfl).trans hf) hr hst hp

/-! The kind byte (R132, R158). -/

theorem firstByte_unknown {F : Framer} {k : Byte} (hk : knownKind k = false) :
    firstByte F k = reject .badKind { F with wr := 1, g := 0, vhave := false, kind := k } (some (0, k)) := by
  have h : (k ≠ Config.kindIr ∧ k ≠ Config.kindReset) ∧ k ≠ Config.kindKeepalive := by simpa [knownKind] using hk
  obtain ⟨⟨hir, hreset⟩, hkeep⟩ := h
  simp [firstByte, hir, hreset, hkeep]

theorem knownKind_eq_false {k : Byte} (h1 : k ≠ 0x01#8) (h2 : k ≠ 0x7E#8) (h3 : k ≠ 0x7F#8) : knownKind k = false := by
  simp [knownKind, Config.kindIr, Config.kindReset, Config.kindKeepalive, h1, h2, h3]

/-- Settles O13: a known kind opens the frame at its field, any other is rejected. -/
theorem firstByteOfAFrame : Obligations.FirstByteOfAFrame := by
  intro s b gtick wedged hs hi hcap
  have event {r : FrmResult} (hf : firstByte s.frm b = r) := evByte_stores s b gtick wedged 0 r (ready_await hs) hi hcap
    ((frmStep_await_byte _ _ _ _ b hs rfl).trans hf)
  by_cases hir : b = 0x01#8
  · simp only [if_pos hir]
    subst hir
    exact event (firstByte_known rfl) rfl rfl rfl
  · by_cases hctl : b = 0x7E#8 ∨ b = 0x7F#8
    · simp only [if_neg hir, if_pos hctl]
      rcases hctl with rfl | rfl <;> exact event (firstByte_known rfl) rfl rfl rfl
    · simp only [if_neg hir, if_neg hctl]
      obtain ⟨hreset, hkeep⟩ := not_or.1 hctl
      exact event (firstByte_unknown (knownKind_eq_false hir hreset hkeep)) rfl rfl rfl

/-- Settles O30: the form is its one byte, which FIRST_BYTE rejects. -/
theorem unrecognizedKindRejected : Obligations.UnrecognizedKindRejected := by
  intro s k h1 h2 h3 hs hi hcap
  have hf := (frmStep_await_byte s.par _ s.gen.gstate (offer k) k hs rfl).trans (firstByte_unknown (knownKind_eq_false h1 h2 h3))
  obtain ⟨t, ht, hfrm, hgen⟩ := stores_quiet (ready_await hs) hi hcap hf rfl rfl rfl
  obtain ⟨h0, -⟩ := ht.held
  exact ⟨t, ht.deliver_eq, ht.restKept hgen, h0, ht.bytesKept, hfrm, ht.pulses⟩

/-! The payload length (R135, R140). -/

/-- Settles O14: PLEN_BYTE accepts a zero and rejects any other byte. -/
theorem payloadLengthByte : Obligations.PayloadLengthByte := by
  intro s b gtick wedged hs hf hi hw
  have hbyte := recvByte_plen s.par s.frm b hw.ne hf
  have hres : reservedField s.frm.field = false := by rw [hf]; rfl
  by_cases hb : b = 0x00#8
  · simp only [if_pos hb]
    rw [plenByte, if_pos hb] at hbyte
    exact evByte_recv gtick wedged hs hi hw hres hbyte rfl rfl rfl
  · simp only [if_neg hb]
    rw [plenByte, if_neg hb] at hbyte
    exact evByte_recv gtick wedged hs hi hw hres hbyte rfl rfl rfl

/-! The header values (R136 to R138). -/

/-- The byte that completes a header value, with which the field does `r`. -/
theorem recvByte_value {P : Params} {F : Framer} {b : Byte} {v : V14} {r : FrmResult} (hf : headerField F.field)
    (hw : F.wr ≠ P.fbCapacity) (hv : vstep F.vhave F.vlow b = .done v)
    (hr : headerValue P { counted F with vhave := false } v = r) : recvByte P F b = { r with write := some (F.wr, b) } :=
  hr ▸ recvByte_done hf hw hv

/-- Settles O16: VSTEP's three results, and the range of a value. -/
theorem pulseCountByte : Obligations.PulseCountByte := by
  intro s b gtick wedged hs hf hi hw
  have hh : headerField s.frm.field := .inl hf
  have hres := reservedField_header hh
  cases hv : vstep s.frm.vhave s.frm.vlow b with
  | more lo => exact evByte_recv gtick wedged hs hi hw hres (recvByte_more hh hw.ne hv) rfl rfl rfl
  | overlong => exact evByte_recv gtick wedged hs hi hw hres (recvByte_overlong hh hw.ne hv) rfl rfl rfl
  | done v =>
    by_cases hr : 1 ≤ v.toNat ∧ v.toNat ≤ s.par.maxPulses
    · simp only [if_pos hr]
      exact evByte_recv gtick wedged hs hi hw hres (recvByte_value hh hw.ne hv (headerValue_pcount hf hr)) rfl rfl rfl
    · simp only [if_neg hr]
      exact evByte_recv gtick wedged hs hi hw hres (recvByte_value hh hw.ne hv (headerValue_badCount hf hr)) rfl rfl rfl

/-- Settles O17: VSTEP's three results; every value is a period. -/
theorem carrierPeriodByte : Obligations.CarrierPeriodByte := by
  intro s b gtick wedged hs hf hi hw
  have hh : headerField s.frm.field := .inr (.inl hf)
  have hres := reservedField_header hh
  cases hv : vstep s.frm.vhave s.frm.vlow b with
  | more lo => exact evByte_recv gtick wedged hs hi hw hres (recvByte_more hh hw.ne hv) rfl rfl rfl
  | overlong => exact evByte_recv gtick wedged hs hi hw hres (recvByte_overlong hh hw.ne hv) rfl rfl rfl
  | done v => exact evByte_recv gtick wedged hs hi hw hres (recvByte_value hh hw.ne hv (headerValue_cper hf)) rfl rfl rfl

/-- Settles O18: VSTEP's three results, and a value against the period. -/
theorem carrierHighByte : Obligations.CarrierHighByte := by
  intro s b gtick wedged hs hf hi hw
  have hh : headerField s.frm.field := .inr (.inr hf)
  have hres := reservedField_header hh
  cases hv : vstep s.frm.vhave s.frm.vlow b with
  | more lo => exact evByte_recv gtick wedged hs hi hw hres (recvByte_more hh hw.ne hv) rfl rfl rfl
  | overlong => exact evByte_recv gtick wedged hs hi hw hres (recvByte_overlong hh hw.ne hv) rfl rfl rfl
  | done v =>
    by_cases hr : v.toNat ≤ s.frm.cper.toNat
    · simp only [if_pos hr]
      exact evByte_recv gtick wedged hs hi hw hres (recvByte_value hh hw.ne hv (headerValue_chigh hf hr)) rfl rfl rfl
    · simp only [if_neg hr]
      exact evByte_recv gtick wedged hs hi hw hres (recvByte_value hh hw.ne hv (headerValue_badCarrier hf hr)) rfl rfl rfl

/-! The last duration byte and the start (R141, R160, R181). -/

/-- A cycle looks at no more of its input than the reset and what the framer does with the rest. -/
theorem cycle_congr {I J : Input} {s : State} (h0 : I.rst = J.rst)
    (hf : frmStep s.par s.frm s.gen.gstate I = frmStep s.par s.frm s.gen.gstate J) : cycle I s = cycle J s := by
  simp only [cycle, blockStep, h0, hf]

/-- In RECV an accepted byte takes precedence over everything but reset, so its event is its delivery (R142, R143, R222). -/
theorem evByte_eq_deliver {s : State} (b : Byte) (gtick wedged : Bool) (hs : s.frm.fstate = .recv)
    (hres : reservedField s.frm.field = false) : exec (.evByte b gtick wedged) s = deliver [b] s := by
  have hr := ready_recv hs
  have hc : cycle { rst := false, rx := some b, gtick := gtick, wedged := wedged } s = cycle (offer b) s :=
    cycle_congr rfl ((frmStep_recv_byte _ _ _ _ b hs hres rfl).trans (frmStep_recv_byte _ _ _ _ b hs hres rfl).symm)
  rw [deliver_ready b [] s hr, exec, execEvByte, eventCycle_ready _ s hr, hc]
  cases cycle (offer b) s <;> rfl

/-- Settles O20: the byte that ends the frame, whatever comes beside it. -/
theorem lastDurationByteStartsTheGenerator : Obligations.LastDurationByteStartsTheGenerator := by
  intro s b gtick wedged hs hf hi hw hn h1 h2 hpb
  obtain ⟨t, ht, hfrm, hgen⟩ := stores_last_byte b hs hf hi hw hn h1 h2 hpb
  obtain ⟨h0, -⟩ := ht.held
  rw [evByte_eq_deliver b gtick wedged hs (by rw [hf]; rfl)]
  exact ⟨t, ht.deliver_eq, ht.par, ht.script, h0, ht.bytesKept, hfrm, hgen, ht.pulses⟩

/-- Settles O52: a stopped generator moves only by a start, and the framer issues one only with the last duration byte. -/
theorem startOnlyByAcceptance : Obligations.StartOnlyByAcceptance := by
  intro s t I h hi hrun
  rcases cycle_next I s t h with ⟨-, rfl⟩ | ⟨h0, g, fb, st, hg, -, hst, -, -, rfl⟩
  · cases hrun
  rw [genStep_idle _ _ _ hi] at hg
  cases hg
  cases hstart : (frmStep s.par s.frm s.gen.gstate I).start with
  | none =>
    rw [hstart] at hst
    cases hst
    exact absurd hrun (by simp [hi])
  | some x =>
    obtain ⟨hs, hf, hn, hw, -, b, hb, e⟩ := frmStep_start _ _ _ _ x hstart
    rw [e]
    exact ⟨h0, hs, hf, hn, hw, ⟨b, hb⟩, rfl, _, rfl, rfl, rfl⟩

end Sys2Proof.Machine
end

section
/-! SUPPORT. The cycles in which only the generator moves, the framer waiting for it in XMIT: a cycle inside a carrier period and the
three carrier ticks; and the starts that complete at once (42_waveform_generator.md R182 to R188). -/

namespace Sys2Proof.Machine

/-- A stopped generator drives nothing (R191). -/
theorem moore_idle (F : Framer) {G : Generator} (h : G.gstate = .idle) :
    moore F G = { moore F G with irOut := false, modConnect := false, pwmEnable := false, tickIrqEn := false, hasEnded := true } := by
  simp [moore, irOut, modConnect, hasEnded, h]

theorem startGen_empty {P : Params} {m : Memory} {st : Start} {G : Generator} (h : st.pc = 0) :
    startGen P m st G = .ok (startEmpty G) :=
  if_pos h

theorem startGen_refused {P : Params} {m : Memory} {st : Start} {G : Generator} (h : P.maxPulses < st.pc) :
    startGen P m st G = .ok (startRefused G) :=
  (if_neg (Nat.ne_zero_of_lt h)).trans (if_pos h)

/-- Settles O41: the two starts stop the generator. -/
theorem startsThatCompleteAtOnce : Obligations.StartsThatCompleteAtOnce := by
  intro P m st F G
  exact ⟨startGen_empty, startGen_refused, moore_idle F rfl⟩

/-- From `s` to `t` the generator alone has moved, in one cycle: to the registers `G`, with the pulses `p`. -/
structure GeneratorMoves (s t : State) (G : Generator) (p : Pulses) : Prop where
  gen : t.gen = G
  frm : t.frm = s.frm
  fb : t.fb = s.fb
  par : t.par = s.par
  script : t.script = s.script
  pulses : pulsesSince s t [p]

/-- While the generator legally runs, a cycle without reset is the generator's step: the framer waits in XMIT (R148, R197). -/
theorem cycle_generatorMoves {s : State} {I : Input} {g : GenResult} (h0 : I.rst = false) (hrun : s.gen.gstate = .run)
    (hl : generatorLegal s.par s.frm s.gen) (hg : genStep s.par s.fb s.gen = .ok g) :
    ∃ t, cycle I s = .next t ∧ GeneratorMoves s t g.gen { genDone := g.genDone } := by
  obtain ⟨hx, -⟩ := hl hrun
  have hf : frmStep s.par s.frm s.gen.gstate I = { frm := s.frm } := by rw [frmStep_xmit _ _ _ _ hx, hrun]; rfl
  have hc := cycle_ok I s g s.fb { gen := g.gen } h0 hg (by rw [hf]; rfl) (by rw [hf]; rfl) (by rw [hf]) hl
  rw [hf] at hc
  exact ⟨_, hc, rfl, rfl, rfl, rfl, rfl, by simp [pulsesSince]⟩

/-- Settles O36: the generator's step is R184's. -/
theorem carrierPhaseAdvances : Obligations.CarrierPhaseAdvances := by
  intro s I h0 hrun hl hc
  obtain ⟨t, ht, hgen, hfrm, hfb, hpar, hscript, hp⟩ := cycle_generatorMoves h0 hrun hl (genStep_phase _ _ _ hrun hc)
  refine ⟨t, ht, ?_, hfrm, hfb, hpar, hscript, hp⟩
  rw [hgen, BitVec.ofNat_add, BitVec.ofNat_toNat, BitVec.setWidth_eq]

/-- In the last cycle of a period the generator's step is the carrier tick (R185). -/
theorem cycle_carrierTick {s : State} {I : Input} {g : GenResult} (h0 : I.rst = false) (hrun : s.gen.gstate = .run)
    (hl : generatorLegal s.par s.frm s.gen) (hc : s.gen.c.toNat + 1 = peff s.gen)
    (hg : carrierTick s.par s.fb { s.gen with c := 0#14 } = .ok g) :
    ∃ t, cycle I s = .next t ∧ GeneratorMoves s t g.gen { genDone := g.genDone } :=
  cycle_generatorMoves h0 hrun hl ((genStep_tick _ _ _ hrun hc.not_lt).trans hg)

/-- Settles O37: the carrier tick counts. -/
theorem carrierTickCountsDown : Obligations.CarrierTickCountsDown := by
  intro s I h0 hrun hl hc hr
  obtain ⟨t, ht, hgen, hfrm, hfb, hpar, hscript, hp⟩ := cycle_carrierTick h0 hrun hl hc (carrierTick_count _ _ _ hr)
  exact ⟨t, ht, hgen, hfrm, hfb, hpar, hscript, hp⟩

/-- Settles O38: the carrier tick advances to a segment whose duration lies in FB. -/
theorem segmentAdvances : Obligations.SegmentAdvances := by
  intro s I h0 hrun hl hc hr hs hrd
  obtain ⟨t, ht, hgen, hfrm, hfb, hpar, hscript, hp⟩ := cycle_carrierTick h0 hrun hl hc (carrierTick_advance _ _ _ hr hs hrd)
  exact ⟨t, ht, hgen, hfrm, hfb, hpar, hscript, hp⟩

/-- Settles O39: the carrier tick completes; where `rd` stands is R51's invariant 8 for the last segment. -/
theorem generationCompletes : Obligations.GenerationCompletes := by
  intro s I h0 hrun hl hc hr hs
  obtain ⟨-, -, -, -, -, -, hrd, -⟩ := hl hrun
  obtain ⟨t, ht, hgen, hfrm, hfb, hpar, hscript, hp⟩ := cycle_carrierTick h0 hrun hl hc (carrierTick_complete _ _ _ hr hs)
  have hlast : t.gen.rd = s.frm.pbase + 4 * s.gen.gpc := by
    rw [hgen]
    exact hrd.trans (by omega)
  exact ⟨t, ht, hgen, hlast, hfrm, hfb, hpar, hscript, hp, moore_idle _ (by rw [hgen]; rfl)⟩

end Sys2Proof.Machine
end

section
/-! SUPPORT. A whole generation: where the generator stands `k` cycles after its start, cycle by cycle, and from that its length and
its waveform (42_waveform_generator.md R194 to R197). -/

namespace Sys2Proof.Machine

/-! Successive cycles, the last one apart. -/

theorem cycles_concat (Is : List Input) (I : Input) (s : State) : cycles (Is ++ [I]) s = andThen (cycles Is s) (cycle I) := by
  induction Is generalizing s with
  | nil => cases h : cycle I s <;> simp [cycles, andThen, h]
  | cons J Js ih => cases h : cycle J s <;> simp [cycles, andThen, h, ih]

theorem cycles_concat_next {Is : List Input} {I : Input} {s u t : State} (hu : cycles Is s = .next u) (ht : cycle I u = .next t) :
    cycles (Is ++ [I]) s = .next t := by
  rw [cycles_concat, hu, andThen_next, ht]

theorem noReset_concat {Is : List Input} {I : Input} : noReset (Is ++ [I]) ↔ noReset Is ∧ I.rst = false := by
  simp [noReset, or_imp, forall_and]

/-- The pulses of the one cycle since `s` are those of the newest output. -/
theorem newest_pulses {s t : State} {p : Pulses} (h : pulsesSince s t [p]) : t.trace.head?.map Output.pulses = some p := by
  rw [← List.head?_map, h]
  rfl

/-! The segments (R194). -/

theorem segStart_mono (P : Params) (m : Memory) (pbase : Nat) : Monotone (segStart P m pbase) :=
  monotone_nat_of_le_succ fun _ => Nat.le_add_right _ _

/-- A period lies in one segment. -/
theorem segment_unique {P : Params} {m : Memory} {pbase j a b : Nat} (ha : segStart P m pbase a ≤ j)
    (ha' : j < segStart P m pbase (a + 1)) (hb : segStart P m pbase b ≤ j) (hb' : j < segStart P m pbase (b + 1)) : a = b := by
  have hab := (segStart_mono P m pbase).reflect_lt (ha.trans_lt hb')
  have hba := (segStart_mono P m pbase).reflect_lt (hb.trans_lt ha')
  omega

/-- The cycles of the generation started in `s`, `P * L` (R195). -/
abbrev generationCycles (s : State) : Nat := peff s.gen * segStart s.par s.fb s.frm.pbase (2 * s.gen.gpc)

/-- A cycle in a segment's periods is a cycle of the generation. -/
theorem lt_generationCycles {s : State} {k sg : Nat} (hsg : sg < 2 * s.gen.gpc)
    (hk : k / peff s.gen < segStart s.par s.fb s.frm.pbase (sg + 1)) : k < generationCycles s := by
  rw [generationCycles, Nat.mul_comm]
  exact Nat.lt_mul_of_div_lt (hk.trans_le (segStart_mono _ _ _ hsg)) (peff_pos _)

/-- What holds throughout a generation started in `s`: the invariant, and all that it leaves as it was (R197). -/
structure GenerationKeeps (s u : State) : Prop where
  inv : Inv u
  frm : u.frm = s.frm
  fb : u.fb = s.fb
  par : u.par = s.par
  gP : u.gen.gP = s.gen.gP
  gH : u.gen.gH = s.gen.gH
  gpc : u.gen.gpc = s.gen.gpc

/-- The state `k` cycles into the generation started in `s`, while it runs. `rem`, or 1 if it is 0, counts the periods left of the segment
with the present one; by `elapsed` they end where R194 has the segment end. -/
structure Generating (s : State) (k : Nat) (u : State) : Prop extends GenerationKeeps s u where
  run : u.gen.gstate = .run
  rem_le : u.gen.rem ≤ segLength s.par s.fb s.frm.pbase u.gen.seg
  elapsed : k + peff s.gen * max u.gen.rem 1 = peff s.gen * segStart s.par s.fb s.frm.pbase (u.gen.seg + 1) + u.gen.c.toNat

section Generation

variable {s u t : State} {k : Nat} {I : Input} {Is : List Input}

theorem generating_zero (hs : Inv s) (hj : justStarted s) : Generating s 0 s := by
  obtain ⟨hrun, hseg, hc, hrem⟩ := hj
  refine ⟨⟨hs, rfl, rfl, rfl, rfl, rfl, rfl⟩, hrun, ?_, ?_⟩
  · rw [hrem, hseg]
    exact le_max_left _ _
  · simp [hrem, hseg, hc, segStart, segLength]

theorem Generating.legal (h : Generating s k u) : generatorLegal u.par u.frm u.gen := by
  obtain ⟨-, -, hG, -⟩ := (inv_iff u).1 h.inv
  exact hG.legal

theorem Generating.peff_eq (h : Generating s k u) : peff u.gen = peff s.gen := by
  rw [peff, h.gP, peff]

/-- The phase and the segment of the generator, from the cycles elapsed (R194). -/
theorem Generating.position (h : Generating s k u) :
    k % peff s.gen = u.gen.c.toNat ∧ segStart s.par s.fb s.frm.pbase u.gen.seg ≤ k / peff s.gen ∧
      k / peff s.gen < segStart s.par s.fb s.frm.pbase (u.gen.seg + 1) := by
  obtain ⟨-, -, -, -, hc, -⟩ := h.legal h.run
  rw [h.peff_eq] at hc
  have hlen : max u.gen.rem 1 ≤ segLength s.par s.fb s.frm.pbase u.gen.seg := max_le h.rem_le (le_max_right _ _)
  have hend : segStart s.par s.fb s.frm.pbase (u.gen.seg + 1) =
    segStart s.par s.fb s.frm.pbase u.gen.seg + segLength s.par s.fb s.frm.pbase u.gen.seg := rfl
  obtain ⟨j, hj⟩ := Nat.exists_eq_add_of_le (hlen.trans (hend ▸ Nat.le_add_left _ _))
  have hk : k = u.gen.c.toNat + peff s.gen * j := by
    have he := h.elapsed
    rw [hj, Nat.mul_add] at he
    omega
  have hdiv : k / peff s.gen = j := by rw [hk, Nat.add_mul_div_left _ _ (peff_pos _), Nat.div_eq_of_lt hc, Nat.zero_add]
  refine ⟨by rw [hk, Nat.add_mul_mod_self_left, Nat.mod_eq_of_lt hc], ?_, ?_⟩ <;> rw [hdiv] <;> omega

/-- The generator still runs before the cycles R195 counts are over. -/
theorem Generating.lt (h : Generating s k u) : k < generationCycles s := by
  obtain ⟨-, -, hper⟩ := h.position
  obtain ⟨-, -, -, hseg, -⟩ := h.legal h.run
  rw [h.gpc] at hseg
  exact lt_generationCycles hseg hper

/-- The state a generation that has just completed leaves (R188). -/
structure Completed (s t : State) : Prop extends GenerationKeeps s t where
  idle : t.gen.gstate = .idle
  pulses : t.trace.head?.map Output.pulses = some { genDone := true }

theorem GenerationKeeps.next (h : GenerationKeeps s u) (ht : cycle I u = .next t) (hfrm : t.frm = u.frm) (hfb : t.fb = u.fb)
    (hpar : t.par = u.par) {G : Generator} (hgen : t.gen = G) (hG : G.gP = u.gen.gP ∧ G.gH = u.gen.gH ∧ G.gpc = u.gen.gpc) :
    GenerationKeeps s t := by
  obtain ⟨hP, hH, hN⟩ := hgen ▸ hG
  exact ⟨cycle_keeps_inv I u t h.inv ht, hfrm.trans h.frm, hfb.trans h.fb, hpar.trans h.par, hP.trans h.gP, hH.trans h.gH,
    hN.trans h.gpc⟩

/-- The duration the carrier tick loads is the next segment's (R187, R194), and it lies in FB. -/
theorem Generating.loads (h : Generating s k u) (hseg : u.gen.seg + 1 ≠ 2 * u.gen.gpc) :
    u.gen.rd + 1 < u.par.fbCapacity ∧
      dur u.par.durationEncoding (fbByte u.fb u.gen.rd) (fbByte u.fb (u.gen.rd + 1)) =
        segDuration s.par s.fb s.frm.pbase (u.gen.seg + 1) := by
  obtain ⟨-, hF, hG, -⟩ := (inv_iff u).1 h.inv
  obtain ⟨-, -, -, hlt, -, -, hrd, -⟩ := hG.legal h.run
  have hst := hG.stored h.run
  have hwr := hF.wr_le
  refine ⟨by omega, ?_⟩
  rw [hrd, h.frm, h.fb, h.par, segDuration]

/-- A cycle inside a carrier period (R184). -/
theorem Generating.phase (h : Generating s k u) (h0 : I.rst = false) (hc : u.gen.c.toNat + 1 < peff u.gen) :
    ∃ t, cycle I u = .next t ∧ Generating s (k + 1) t := by
  obtain ⟨t, ht, hgen, hfrm, hfb, hpar, -, -⟩ := carrierPhaseAdvances u I h0 h.run h.legal hc
  have hc' : (BitVec.ofNat 14 (u.gen.c.toNat + 1)).toNat = u.gen.c.toNat + 1 :=
    (BitVec.toNat_ofNat _ _).trans (Nat.mod_eq_of_lt (by have := peff_le u.gen; omega))
  refine ⟨t, ht, h.next ht hfrm hfb hpar hgen ⟨rfl, rfl, rfl⟩, ?_, ?_, ?_⟩ <;> rw [hgen]
  · exact h.run
  · exact h.rem_le
  · rw [hc', Nat.add_right_comm, h.elapsed, Nat.add_assoc]

/-- `elapsed` over the last cycle of a period, which leaves one period less (R185). -/
theorem Generating.elapsed_tick (h : Generating s k u) (hc : u.gen.c.toNat + 1 = peff u.gen) :
    k + 1 + peff s.gen * (max u.gen.rem 1 - 1) = peff s.gen * segStart s.par s.fb s.frm.pbase (u.gen.seg + 1) := by
  have he := h.elapsed
  rw [h.peff_eq] at hc
  rw [Nat.mul_sub_one]
  have := Nat.le_mul_of_pos_right (peff s.gen) (show 0 < max u.gen.rem 1 by omega)
  omega

/-- The last cycle of a segment is the one R194 gives. -/
theorem Generating.elapsed_segmentEnd (h : Generating s k u) (hc : u.gen.c.toNat + 1 = peff u.gen) (hr : u.gen.rem ≤ 1) :
    k + 1 = peff s.gen * segStart s.par s.fb s.frm.pbase (u.gen.seg + 1) := by
  have he := h.elapsed_tick hc
  rwa [max_eq_right hr, Nat.sub_self, Nat.mul_zero, Nat.add_zero] at he

/-- A carrier tick that leaves the generator in its segment (R186). -/
theorem Generating.countDown (h : Generating s k u) (h0 : I.rst = false) (hc : u.gen.c.toNat + 1 = peff u.gen) (hr : 2 ≤ u.gen.rem) :
    ∃ t, cycle I u = .next t ∧ Generating s (k + 1) t := by
  obtain ⟨t, ht, hgen, hfrm, hfb, hpar, -, -⟩ := carrierTickCountsDown u I h0 h.run h.legal hc hr
  refine ⟨t, ht, h.next ht hfrm hfb hpar hgen ⟨rfl, rfl, rfl⟩, ?_, ?_, ?_⟩ <;> rw [hgen]
  · exact h.run
  · exact (Nat.sub_le _ _).trans h.rem_le
  · have he := h.elapsed_tick hc
    rwa [show max u.gen.rem 1 - 1 = max (u.gen.rem - 1) 1 by omega] at he

/-- A carrier tick that ends a segment before the last (R187). -/
theorem Generating.nextSegment (h : Generating s k u) (h0 : I.rst = false) (hc : u.gen.c.toNat + 1 = peff u.gen) (hr : u.gen.rem ≤ 1)
    (hseg : u.gen.seg + 1 ≠ 2 * u.gen.gpc) : ∃ t, cycle I u = .next t ∧ Generating s (k + 1) t := by
  obtain ⟨hrd, hd⟩ := h.loads hseg
  obtain ⟨t, ht, hgen, hfrm, hfb, hpar, -, -⟩ := segmentAdvances u I h0 h.run h.legal hc hr hseg hrd
  rw [hd] at hgen
  refine ⟨t, ht, h.next ht hfrm hfb hpar hgen ⟨rfl, rfl, rfl⟩, ?_, ?_, ?_⟩ <;> rw [hgen]
  · exact h.run
  · exact le_max_left _ _
  · rw [h.elapsed_segmentEnd hc hr]
    exact (Nat.mul_add _ _ _).symm

/-- The carrier tick that ends the last segment, in the last of the cycles R195 counts (R188). -/
theorem Generating.completes (h : Generating s k u) (h0 : I.rst = false) (hc : u.gen.c.toNat + 1 = peff u.gen) (hr : u.gen.rem ≤ 1)
    (hseg : u.gen.seg + 1 = 2 * u.gen.gpc) :
    ∃ t, cycle I u = .next t ∧ k + 1 = generationCycles s ∧ Completed s t := by
  obtain ⟨t, ht, hgen, -, hfrm, hfb, hpar, -, hp, -⟩ := generationCompletes u I h0 h.run h.legal hc hr hseg
  have he := h.elapsed_segmentEnd hc hr
  rw [hseg, h.gpc] at he
  exact ⟨t, ht, he, h.next ht hfrm hfb hpar hgen ⟨rfl, rfl, rfl⟩, by rw [hgen], newest_pulses hp⟩

/-- One cycle of a generation: it goes on, or its cycles are over and it completes. -/
theorem Generating.step (h : Generating s k u) (h0 : I.rst = false) :
    ∃ t, cycle I u = .next t ∧ (Generating s (k + 1) t ∨ k + 1 = generationCycles s ∧ Completed s t) := by
  obtain ⟨-, -, -, -, hphase, -⟩ := h.legal h.run
  rcases Nat.lt_or_eq_of_le (Nat.succ_le_of_lt hphase) with hc | hc
  · obtain ⟨t, ht, hnext⟩ := h.phase h0 hc
    exact ⟨t, ht, .inl hnext⟩
  by_cases hr : 2 ≤ u.gen.rem
  · obtain ⟨t, ht, hnext⟩ := h.countDown h0 hc hr
    exact ⟨t, ht, .inl hnext⟩
  have hr' : u.gen.rem ≤ 1 := by omega
  by_cases hseg : u.gen.seg + 1 = 2 * u.gen.gpc
  · obtain ⟨t, ht, hend⟩ := h.completes h0 hc hr' hseg
    exact ⟨t, ht, .inr hend⟩
  · obtain ⟨t, ht, hnext⟩ := h.nextSegment h0 hc hr' hseg
    exact ⟨t, ht, .inl hnext⟩

/-! Any cycles without reset (R195, R197). -/

theorem cycles_generating (hs : Inv s) (hj : justStarted s) (h0 : noReset Is) (hn : Is.length < generationCycles s) :
    ∃ t, cycles Is s = .next t ∧ Generating s Is.length t := by
  induction Is using List.reverseRecOn with
  | nil => exact ⟨s, rfl, generating_zero hs hj⟩
  | append_singleton Is I ih =>
    obtain ⟨hIs, hI⟩ := noReset_concat.1 h0
    rw [List.length_append, List.length_singleton] at hn ⊢
    obtain ⟨u, hu, hgen⟩ := ih hIs (by omega)
    obtain ⟨t, ht, hnext | ⟨hend, -⟩⟩ := hgen.step hI
    · exact ⟨t, cycles_concat_next hu ht, hnext⟩
    · exact absurd hend hn.ne

theorem cycles_completed (hs : Inv s) (hj : justStarted s) (h0 : noReset Is) (hn : Is.length = generationCycles s) :
    ∃ t, cycles Is s = .next t ∧ Completed s t := by
  rcases List.eq_nil_or_concat' Is with rfl | ⟨Js, I, rfl⟩
  · exact absurd hn (generating_zero hs hj).lt.ne
  obtain ⟨hJs, hI⟩ := noReset_concat.1 h0
  rw [List.length_append, List.length_singleton] at hn
  obtain ⟨u, hu, hgen⟩ := cycles_generating hs hj hJs (by omega)
  obtain ⟨t, ht, hnext | ⟨-, hend⟩⟩ := hgen.step hI
  · exact absurd hn hnext.lt.ne
  · exact ⟨t, cycles_concat_next hu ht, hend⟩

/-- The cycle after the last of a generation reports its end (R148). -/
theorem cycles_reported (hs : Inv s) (hj : justStarted s) (h0 : noReset Is) (hn : Is.length = generationCycles s + 1) :
    ∃ t, cycles Is s = .next t ∧ t.fb = s.fb ∧ t.gen.gstate = .idle ∧ t.frm = { s.frm with fstate := .await } ∧
      t.trace.head?.map Output.pulses = some { irDone := true } := by
  rcases List.eq_nil_or_concat' Is with rfl | ⟨Js, I, rfl⟩
  · cases hn
  obtain ⟨hJs, hI⟩ := noReset_concat.1 h0
  rw [List.length_append, List.length_singleton] at hn
  obtain ⟨u, hu, hend⟩ := cycles_completed hs hj hJs (by omega)
  have hstart := generating_zero hs hj
  obtain ⟨hx, -⟩ := hstart.legal hstart.run
  obtain ⟨t, ht, hfrm, hfb, ⟨-, hgen, -⟩, hp⟩ := transmissionEndReported u I hI (by rw [hend.frm, hx]) hend.idle
  exact ⟨t, cycles_concat_next hu ht, hfb.trans hend.fb, by rw [hgen, hend.idle], by rw [hfrm, hend.frm], newest_pulses hp⟩

end Generation

/-- Settles O42: before, at and after the last cycle of the generation. -/
theorem generationLastsPeriodTimesLength : Obligations.GenerationLastsPeriodTimesLength := by
  intro s Is hs hj h0 n hn
  rcases Nat.lt_trichotomy Is.length n with hlt | heq | hgt
  · obtain ⟨t, ht, hgen⟩ := cycles_generating hs hj h0 hlt
    exact ⟨t, ht, hgen.fb, fun _ => ⟨hgen.run, hgen.frm⟩, fun h => by omega, fun h => by omega⟩
  · obtain ⟨t, ht, hend⟩ := cycles_completed hs hj h0 heq
    exact ⟨t, ht, hend.fb, fun h => by omega, fun _ => ⟨hend.idle, hend.frm, hend.pulses⟩, fun h => by omega⟩
  · obtain ⟨t, ht, hfb, hend⟩ := cycles_reported hs hj h0 (le_antisymm hn hgt)
    exact ⟨t, ht, hfb, fun h => by omega, fun h => by omega, fun _ => hend⟩

/-- Settles O43: the cycles elapsed give the segment and the phase, and those the two outputs. -/
theorem waveformClosedForm : Obligations.WaveformClosedForm := by
  intro s Is sg hs hj h0 hsg hfrom hto
  obtain ⟨t, ht, hgen⟩ := cycles_generating hs hj h0 (lt_generationCycles hsg hto)
  obtain ⟨hphase, hfrom', hto'⟩ := hgen.position
  have hseg : t.gen.seg = sg := segment_unique hfrom' hto' hfrom hto
  have hmod : modConnect t.gen = decide (sg % 2 = 0) := by simp [modConnect, carrierOn, hgen.run, hseg]
  refine ⟨t, ht, hseg, hmod, ?_⟩
  change (modConnect t.gen && decide (t.gen.c.toNat < t.gen.gH.toNat)) = _
  rw [hmod, ← hphase, hgen.gH, peff]

end Sys2Proof.Machine
end

section
/-! SUPPORT. The cycles that stop: a reserved field in RECV, the generator in RUN outside R51's invariant 8, and a segment that lies
outside FB (60_exceptions.md R234). -/

namespace Sys2Proof.Machine

/-- A cycle with the generator stopped in RECV with a reserved field is the fatal path (R234). -/
theorem cycle_reservedField {s : State} {I : Input} (h0 : I.rst = false) (hs : s.frm.fstate = .recv)
    (hf : reservedField s.frm.field = true) (hi : s.gen.gstate = .idle) :
    cycle I s = .fault (.fatal s.toBlock (outputOf s.toBlock { fatal := true })) := by
  have hr := frmStep_fatal s.par s.frm s.gen.gstate I hs hf
  simp [cycle, blockStep, h0, genStep_idle _ _ _ hi, hr, fatalPath, storeByte, startOrKeep]

/-- Settles O49: the fatal path keeps the block, and a reset cycle answers from every state. -/
theorem reservedFieldIsFatal : Obligations.ReservedFieldIsFatal := by
  intro s I hs hf hi
  exact ⟨fun h0 => cycle_reservedField h0 hs hf hi, fun h1 => ⟨_, cycle_reset I s h1, rfl⟩⟩

/-- A cycle without reset answers only where the generator is legal, so elsewhere it stops: no cycle is refused. -/
theorem cycle_illegalGenerator {s : State} {I : Input} (h0 : I.rst = false) (hl : ¬ generatorLegal s.par s.frm s.gen) :
    ∃ f, cycle I s = .fault f := by
  cases hb : blockStep s.par s.toBlock I with
  | error e => exact ⟨e, by simp [cycle, hb]⟩
  | ok r =>
    rcases blockStep_ok _ _ _ _ hb with ⟨h1, -⟩ | ⟨-, -, -, -, -, -, -, -, hl', -⟩
    · simp [h0] at h1
    · exact absurd hl' hl

/-- A fault of the generator's part stops the cycle. -/
theorem cycle_generatorFault {s : State} {I : Input} {f : Fault} (h0 : I.rst = false) (hg : genStep s.par s.fb s.gen = .error f) :
    cycle I s = .fault f := by
  simp [cycle, blockStep, h0, hg]

/-- A duration that does not lie in FB with both its bytes stops at one of them (R63). -/
theorem readDuration_outside (P : Params) (m : Memory) {a : Nat} (h : P.fbCapacity ≤ a + 1) :
    ∃ x, readDuration P m a = .error (.memRead x) ∧ (x = a ∨ x = a + 1) := by
  rcases memRead_cases P m a with ⟨-, h0⟩ | ⟨-, h0⟩
  · rcases memRead_cases P m (a + 1) with ⟨hlt, -⟩ | ⟨-, h1⟩
    · omega
    · exact ⟨a + 1, by simp only [readDuration, h0, h1], .inr rfl⟩
  · exact ⟨a, by simp only [readDuration, h0], .inl rfl⟩

/-- A tick that ends a segment before the last stops where the next duration's read does (R187). -/
theorem carrierTick_advanceFault {P : Params} {m : Memory} {G : Generator} {f : Fault} (hr : G.rem ≤ 1)
    (hs : G.seg + 1 ≠ 2 * G.gpc) (hd : readDuration P m G.rd = .error f) : carrierTick P m G = .error f := by
  simp only [carrierTick, if_neg (Nat.not_le.2 (Nat.lt_succ_of_le hr)), advance, if_neg hs, hd]

/-- Settles O50: a cycle answers only where the generator is legal, and there the advance reads outside FB. -/
theorem illegalGeneratorStops : Obligations.IllegalGeneratorStops := by
  intro s I h0 hrun
  refine ⟨cycle_illegalGenerator h0, fun _ hc hr hs hrd => ?_⟩
  obtain ⟨x, hd, hx⟩ := readDuration_outside s.par s.fb hrd
  have htick : carrierTick s.par s.fb { s.gen with c := 0#14 } = .error (.memRead x) := carrierTick_advanceFault hr hs hd
  exact ⟨x, cycle_generatorFault h0 ((genStep_tick _ _ _ hrun hc.not_lt).trans htick), hx⟩

end Sys2Proof.Machine
end

section
/-! SUPPORT. The reset event: what its cycle leaves, and the byte beside it (70_reset_and_hazards.md R250, R256). -/

namespace Sys2Proof.Machine

/-- The Moore outputs of RESET_STATE (R250, R253). -/
theorem moore_reset : moore Framer.reset Generator.reset =
    { rxReady := true, bgYield := true, irOut := false, modConnect := false, pwmEnable := false, tickIrqEn := false,
      hasEnded := true, status := 0x0000#16 } := by
  decide

/-- A reset event answers from every state; the byte beside it is dropped where the block is ready and waits where it is busy. -/
theorem eventCycle_reset (I : Input) (s : State) (h : I.rst = true) :
    eventCycle I s = .next ((s.advance (resetState s.toBlock, outputOf s.toBlock {})).hold
      (if rxReady s.frm then [] else I.rx.toList)) := by
  cases hr : rxReady s.frm with
  | true => exact (eventCycle_ready I s hr).trans (cycle_reset I s h)
  | false => rw [eventCycle_busy I s hr, cycle_reset I s h]; rfl

/-- Settles O27: the reset event's state register by register, and the outputs of RESET_STATE. -/
theorem resetCycle : Obligations.ResetCycle := by
  intro s acc gtick wedged
  refine ⟨_, eventCycle_reset _ s rfl, rfl, rfl, rfl, rfl, rfl, moore_reset, fun hr => ?_⟩
  simp [hr]

end Sys2Proof.Machine
end

section
/-! SUPPORT. Single bytes and the forms made of them: VSTEP as numbers, a byte that does not fit, a duration byte, the control frames and
`carrier_high_period` whole (40_varint_decoder.md R110; 41_framer.md R134, R138, R139, R155, R156). -/

namespace Sys2Proof.Machine

theorem varintValue_one_toNat (l : Group) : (varintValue (.one l)).toNat = l.toNat := by
  have hl := l.isLt
  simp only [varintValue, BitVec.toNat_setWidth]
  omega

/-- Settles O7: a byte is its bit 7, which tells the two results apart, and a group, which carries the value. -/
theorem varintStepValues : Obligations.VarintStepValues := by
  intro vlow b
  obtain ⟨top, g, rfl⟩ : ∃ top g, b = byteOf top g := ⟨_, _, (byteOf_bit7_low7 b).symm⟩
  rw [byteOf_toNat]
  have hg := g.isLt
  cases top with
  | false =>
    rw [Bool.toNat_false, Nat.mul_zero, Nat.zero_add]
    exact ⟨fun _ => ⟨_, vstep_single _ _, varintValue_one_toNat g⟩, fun h => absurd h (by omega),
      fun _ => ⟨_, vstep_second _ _, join7_toNat _ _⟩, fun h => absurd h (by omega)⟩
  | true =>
    rw [Bool.toNat_true, Nat.mul_one]
    exact ⟨fun h => absurd h (by omega), fun _ => ⟨_, vstep_first _ _, by omega⟩, fun h => absurd h (by omega),
      fun _ => vstep_third _ _⟩

/-- A byte offered with FB full is not stored and rejects the frame, at any field (R134, R221). -/
theorem deliver_overflow {s : State} (b : Byte) (hs : s.frm.fstate = .recv) (hres : reservedField s.frm.field = false)
    (hi : s.gen.gstate = .idle) (hw : s.frm.wr = s.par.fbCapacity) :
    ∃ t, deliver [b] s = .next t ∧ FramerMoves s t (rejected .fbOverflow s.frm) (rejectPulses .fbOverflow) := by
  have hf := (frmStep_recv_byte s.par _ s.gen.gstate (offer b) b hs hres rfl).trans (recvByte_overflow _ _ b hw)
  obtain ⟨t, ht, hmoves⟩ := cycle_framerMoves rfl hi hf rfl rfl rfl
  exact ⟨t, by rw [deliver_ready b [] s (ready_recv hs), ht]; rfl, hmoves⟩

/-- Settles O15: in RECV the event of a byte is its delivery, which overflows. -/
theorem overflowRejects : Obligations.OverflowRejects := by
  intro s b gtick wedged hs hres hi hw
  obtain ⟨t, ht, hrest, hfb, hfrm, hp⟩ := deliver_overflow b hs hres hi hw
  exact ⟨t, (evByte_eq_deliver b gtick wedged hs hres).trans ht, hrest, hfb, hfrm, hp⟩

/-- Settles O19: in RECV the event of a byte is its delivery, which stores and counts it. -/
theorem durationByteStored : Obligations.DurationByteStored := by
  intro s b gtick wedged hs hf hi hw hn
  obtain ⟨t, ht, hfrm, hgen⟩ := stores_pair_byte b hs hf hi hw (by omega)
  obtain ⟨h0, -⟩ := ht.held
  have hev := evByte_eq_deliver b gtick wedged hs (by rw [hf]; rfl)
  exact ⟨t, hev.trans ht.deliver_eq, ht.restKept hgen, h0, ht.bytesKept, hfrm, ht.pulses⟩

/-! The control frames (R135, R140, R155, R156). -/

/-- The framer behind the kind byte of a control frame. -/
def ctrlOpened (F : Framer) (k : Byte) : Framer :=
  { F with fstate := .recv, field := .plen, vhave := false, kind := k, wr := 1, g := 0 }

theorem stores_ctrl_kind {s : State} {k : Byte} (hk : k = Config.kindReset ∨ k = Config.kindKeepalive)
    (hs : s.frm.fstate = .await) (hi : s.gen.gstate = .idle) (hcap : 1 ≤ s.par.fbCapacity) :
    ∃ t, Stores s 0 [k] [{}] t ∧ t.frm = ctrlOpened s.frm k ∧ t.gen = s.gen := by
  have hknown : knownKind k = true := by rcases hk with rfl | rfl <;> rfl
  have hir : k ≠ Config.kindIr := by rcases hk with rfl | rfl <;> decide
  obtain ⟨t, ht, hfrm, hgen⟩ := stores_kind hknown hs hi hcap
  exact ⟨t, ht, by rw [hfrm, opened, if_neg hir, ctrlOpened], hgen⟩

/-- A control frame with room for its two bytes is stored and accepted at the second. -/
theorem stores_ctrl_frame {s : State} {k : Byte} (hk : k = Config.kindReset ∨ k = Config.kindKeepalive)
    (hs : s.frm.fstate = .await) (hi : s.gen.gstate = .idle) (hcap : 2 ≤ s.par.fbCapacity) :
    ∃ t, Stores s 0 [k, 0x00#8] [acceptPulses k, {}] t ∧ t.frm = { ctrlOpened s.frm k with fstate := .await, wr := 2 } ∧
      t.gen = s.gen := by
  obtain ⟨t, ht, hfrm, hgen⟩ := stores_ctrl_kind hk hs hi (by omega)
  have hroom : t.frm.wr < t.par.fbCapacity := by rw [hfrm, ht.par]; exact hcap
  have hbyte : recvByte t.par t.frm 0x00#8 = acceptCtrl (counted t.frm) (some (t.frm.wr, 0x00#8)) := by
    rw [recvByte_plen _ _ _ hroom.ne (by rw [hfrm]; rfl), plenByte, if_pos rfl]
  obtain ⟨u, hu, ufrm, ugen⟩ := stores_recv (by rw [hfrm]; rfl) (by rw [hgen]; exact hi) hroom (by rw [hfrm]; rfl) hbyte rfl rfl rfl
  rw [hfrm] at hu ufrm
  exact ⟨u, ht.append hu rfl, ufrm, ugen.trans hgen⟩

/-- In a FrameBuffer of one byte the second byte of a control frame overflows. -/
theorem deliver_ctrl_overflow {s : State} {k : Byte} (b : Byte) (hk : k = Config.kindReset ∨ k = Config.kindKeepalive)
    (hs : s.frm.fstate = .await) (hi : s.gen.gstate = .idle) (hcap : s.par.fbCapacity = 1) :
    ∃ t, deliver [k, b] s = .next t ∧ restKept s t ∧ fbByte t.fb 0 = k ∧ bytesKept s t [0] ∧
      t.frm = rejected .fbOverflow (ctrlOpened s.frm k) ∧ pulsesSince s t [rejectPulses .fbOverflow, {}] := by
  obtain ⟨t, ht, hfrm, hgen⟩ := stores_ctrl_kind hk hs hi hcap.ge
  have hover := deliver_overflow (s := t) b (by rw [hfrm]; rfl) (by rw [hfrm]; rfl) (by rw [hgen]; exact hi)
    (by rw [hfrm, ht.par]; exact hcap.symm)
  obtain ⟨u, hu, ⟨hpar, ugen, hscript⟩, hfb, ufrm, hp⟩ := hover
  obtain ⟨h0, -⟩ := ht.held
  refine ⟨u, (ht.runs [b]).trans hu, ⟨hpar.trans ht.par, ugen.trans hgen, hscript.trans ht.script⟩, by rw [hfb]; exact h0, ?_,
    by rw [ufrm, hfrm], ?_⟩
  · rw [bytesKept, hfb]
    exact ht.bytesKept
  · rw [pulsesSince, hp, ht.pulses]
    rfl

/-- Settles O28: both operations deliver their kind and a zero. -/
theorem controlFramesAccepted : Obligations.ControlFramesAccepted := by
  intro s i k hik hs hi
  obtain ⟨hx, hk⟩ : exec i s = deliver [k, 0x00#8] s ∧ (k = Config.kindReset ∨ k = Config.kindKeepalive) := by
    rcases hik with ⟨rfl, rfl⟩ | ⟨rfl, rfl⟩
    · exact ⟨rfl, .inr rfl⟩
    · exact ⟨rfl, .inl rfl⟩
  rw [hx]
  refine ⟨fun hcap => ?_, deliver_ctrl_overflow 0x00#8 hk hs hi⟩
  obtain ⟨t, ht, hfrm, hgen⟩ := stores_ctrl_frame hk hs hi hcap
  obtain ⟨h0, h1, -⟩ := ht.held
  exact ⟨t, ht.deliver_eq, ht.restKept hgen, h0, h1, ht.bytesKept, hfrm, ht.pulses⟩

/-! `carrier_high_period` (R138). -/

/-- The framer behind a legal `carrier_high_period`: the durations begin at the cursor. -/
def highTaken (F : Framer) (ch : Varint) : Framer :=
  { fieldRead F ch with chigh := varintValue ch, field := .pairs, pbase := (fieldRead F ch).wr, need := 4 * F.pc }

theorem stores_high {s : State} {ch : Varint} (hs : s.frm.fstate = .recv) (hf : s.frm.field = .chigh) (hv : s.frm.vhave = false)
    (hi : s.gen.gstate = .idle) (hcap : s.frm.wr + (varintBytes ch).length ≤ s.par.fbCapacity) (hle : varintValue ch ≤ s.frm.cper) :
    ∃ t, Stores s s.frm.wr (varintBytes ch) (List.replicate (varintBytes ch).length {}) t ∧ t.frm = highTaken s.frm ch ∧
      t.gen = s.gen := by
  obtain ⟨t, ht, hfrm, hgen⟩ := stores_field hs (.inr (.inr hf)) hv hi hcap
  rw [headerValue_chigh (show (fieldRead s.frm ch).field = .chigh from hf) hle] at ht hfrm
  rw [← List.replicate_succ, Nat.sub_add_cancel (varintBytes_length_pos ch)] at ht
  exact ⟨t, ht, hfrm, hgen⟩

/-- Settles O34: the two forms of a legal value, each as its bytes and its number. -/
theorem varintFormsInCarrierHigh : Obligations.VarintFormsInCarrierHigh := by
  intro s l h hs hf hv hi hcap
  refine ⟨fun hle => ?_, fun hle => ?_⟩
  · have hval : varintValue (.one l) ≤ s.frm.cper := by rw [BitVec.le_def, varintValue_one_toNat]; exact hle
    obtain ⟨t, ht, hfrm, hgen⟩ := stores_high hs hf hv hi (by simp [varintBytes]; omega) hval
    obtain ⟨h0, -⟩ := ht.held
    refine ⟨t, ht.deliver_eq, ht.restKept hgen, h0, ht.bytesKept, ?_, ht.pulses⟩
    simp [hfrm, highTaken, fieldRead, varintValue, varintBytes, hv]
  · have hval : varintValue (.two l h) ≤ s.frm.cper := by rw [BitVec.le_def, varintValue, join7_toNat]; exact hle
    obtain ⟨t, ht, hfrm, hgen⟩ := stores_high (ch := .two l h) hs hf hv hi hcap hval
    obtain ⟨h0, h1, -⟩ := ht.held
    refine ⟨t, ht.deliver_eq, ht.restKept hgen, h0, h1, ht.bytesKept, ?_, ht.pulses⟩
    simp [hfrm, highTaken, fieldRead, varintValue, varintBytes, hv, ← join7_toNat]

end Sys2Proof.Machine
end

section
/-! SUPPORT. What a busy block does not take: bytes, ticks and wedged indications in XMIT, and a wedged indication in RECV
(41_framer.md R131, R143, R149; 70_reset_and_hazards.md R256). -/

namespace Sys2Proof.Machine

/-- A cycle in which no byte is offered stores nothing (R62). -/
theorem cycle_noByte_fb {I : Input} {s t : State} (h : cycle I s = .next t) (hb : I.rx = none) : t.fb = s.fb := by
  rcases cycle_next I s t h with ⟨-, rfl⟩ | ⟨-, g, fb, st, -, hw, -, -, -, rfl⟩
  · rfl
  rcases storeByte_cases hw with ⟨-, hfb⟩ | ⟨a, b, hab, -⟩
  · exact hfb
  · obtain ⟨hrx, -⟩ := frmStep_write _ _ _ _ _ _ hab
    simp [hb] at hrx

/-- An operation of the stream is the delivery of its encoding's bytes. -/
theorem exec_eq_deliver {i : Instr} {b : Byte} {bs : List Byte} (h : encode i = .bytes b bs) (s : State) :
    exec i s = deliver (b :: bs) s := by
  cases i with
  | evRst | evByte | evGtick | evWedged => cases h
  | _ => cases h; rfl

/-- In XMIT a cycle without reset is the cycle with no input (R149). -/
theorem cycle_xmit_eq_idle {I : Input} {s : State} (hs : s.frm.fstate = .xmit) (h0 : I.rst = false) :
    cycle I s = cycle Input.idle s :=
  cycle_busy_congr s (busy_xmit hs) h0

/-- Settles O22: a busy block runs one cycle, which looks at no byte, and what was offered waits. -/
theorem bytesWaitDuringTransmission : Obligations.BytesWaitDuringTransmission := by
  intro s hinv hs
  have hr := busy_xmit hs
  obtain ⟨u, hu, -⟩ := cycle_answers_inv s Input.idle hinv
  refine ⟨u, hu, cycle_noByte_fb hu rfl, fun b gtick wedged => ?_, fun i b bs hib => ?_, fun b gtick wedged => ?_⟩
  · rw [exec, execEvByte, eventCycle_busy _ s hr, cycle_xmit_eq_idle hs rfl, hu]
    rfl
  · rw [exec_eq_deliver hib, deliver_busy b bs s hr, cycle_xmit_eq_idle hs rfl, hu]
    rfl
  · refine ⟨_, (eventCycle_noByte _ s rfl).trans (cycle_reset _ s rfl), ?_⟩
    rw [exec, execEvRst, eventCycle_busy _ s hr, cycle_reset _ s rfl]
    rfl

/-- Settles O25: neither event offers a byte, so each is its cycle; XMIT looks at no input, and RECV at no wedged indication. -/
theorem ignoredTicksAndWedges : Obligations.IgnoredTicksAndWedges := by
  intro s wedged hinv
  refine ⟨fun hs => ?_, fun hs => ?_⟩
  · obtain ⟨t, ht, -⟩ := cycle_answers_inv s Input.idle hinv
    exact ⟨t, ht, (eventCycle_noByte _ s rfl).trans ((cycle_xmit_eq_idle hs rfl).trans ht),
      (eventCycle_noByte _ s rfl).trans ((cycle_xmit_eq_idle hs rfl).trans ht)⟩
  · obtain ⟨-, ⟨hrecv, -, -, -, -, -, -, -, hidle⟩, -⟩ := hinv
    obtain ⟨hres, -⟩ := hrecv hs
    have quiet {I : Input} (hb : I.rx = none) (hg : I.gtick = false) : frmStep s.par s.frm s.gen.gstate I = { frm := s.frm } := by
      rw [frmStep_recv_quiet _ _ _ _ hs hres hb, hg]
      rfl
    obtain ⟨t, ht, ⟨-, hgen, -⟩, hfb, hfrm, -⟩ :=
      cycle_framerMoves (I := Input.idle) rfl (hidle (by simp [hs])) (quiet rfl rfl) rfl rfl rfl
    have hwedged : exec (.evWedged none false) s = cycle Input.idle s :=
      (eventCycle_noByte _ s rfl).trans (cycle_congr rfl ((quiet rfl rfl).trans (quiet rfl rfl).symm))
    exact ⟨t, ht, hwedged.trans ht, hfrm, hgen, hfb⟩

end Sys2Proof.Machine
end
